-- ==== Sys2Proof/Word.lean ====
section
/-!
DEFINITION. Words of the block: the byte, the nibble, the names of the six signals, and the words of the
opcode table's three formats (spec/00_scope.md R7, spec/30_encoding.md R50).
-/

namespace Sys2Proof

/-- A byte, bit 0 the least significant (R7). There is one access width in the block (R35). -/
abbrev Byte := BitVec 8

/-- A nibble, format NIB4 (R52). -/
abbrev Nibble := BitVec 4

/-- What a SET_SIGNAL names: a bit position 0 to 7 of BUS. Six positions have a name in MAP (R11);
positions 6 and 7 have none, and SET_SIGNAL with one of them is refused (R59, R80). -/
inductive Signal where
  | rs
  | e
  | d4
  | d5
  | d6
  | d7
  /-- bit position 6, which MAP does not name -/
  | unnamed6
  /-- bit position 7, which MAP does not name -/
  | unnamed7
  deriving DecidableEq, Repr

/-- A word of spec/opcode_table.json, in one of the table's three formats (R50). -/
inductive TableWord where
  /-- a request word, the format of the nine operations (R57) -/
  | req16 (w : BitVec 16)
  /-- an LCD command byte (R55) -/
  | lcd8 (b : Byte)
  /-- a lone command nibble (R55, R62) -/
  | nib4 (n : Nibble)
  deriving DecidableEq, Repr

/-- Why the decoder rejects a request word: both are the spec's ReservedRequest (R57, R59, R124). -/
inductive DecodeReject where
  /-- selector 0x9 to 0xF -/
  | reservedSelector
  /-- a must-be-zero bit is set -/
  | mustBeZeroSet
  deriving DecidableEq, Repr

end Sys2Proof
end

