-- ==== Sys2Proof/Config.lean ====
section
/-!
DEFINITION. What an implementation fixes, and the free values (spec/00_scope.md R5, spec/70_reset_and_hazards.md R161).
An `opaque` constant has no body: no proof can see its value, so a statement holds whatever it is.
-/

namespace Sys2Proof

/-- The eight waits of R161, by name. -/
inductive Wait where
  /-- T_POWER -/
  | power
  /-- T_PING1 -/
  | ping1
  /-- T_PING2 -/
  | ping2
  /-- T_PING3 -/
  | ping3
  /-- T_AS -/
  | addressSetup
  /-- T_EXEC -/
  | exec
  /-- T_LONG -/
  | long
  /-- T_LATCH -/
  | latch
  deriving DecidableEq, Repr

/-- INIT_VARIANT: which of the two historical command orders INIT emits (R111). -/
inductive InitVariant where
  | A
  | B
  deriving DecidableEq, Repr

namespace Config

/-- The lower bound of each wait, in nanoseconds (R5, R161): 15 ms, 4.1 ms, 100 µs, 100 µs, 1 µs, 40 µs, 2 ms, 1 µs. -/
def waitBound : Wait → Nat
  | .power => 15000000
  | .ping1 => 4100000
  | .ping2 => 100000
  | .ping3 => 100000
  | .addressSetup => 1000
  | .exec => 40000
  | .long => 2000000
  | .latch => 1000

/-- How much longer than its bound an implementation makes each wait: open (R5, R161, decision D6). Log entry 15. -/
opaque waitExtra : Wait → Nat

/-- The value an implementation gives the parameter `T_*`: any value not below the bound (R5). -/
def waitNs (w : Wait) : Nat := waitBound w + waitExtra w

/-- SCK_DIV, the serial clock divide ratio: open (R5, decision D5). Log entry 17. -/
opaque sckDiv : Nat

/-- F_REF, the reference clock in Hz: open, and no rule depends on it (R5, decision D5). Log entry 17. -/
opaque fRef : Nat

/-- CFG.master, hardwired 1: the block generates the clock (R15). -/
def cfgMaster : Bool := true

/-- CFG.msb_first, hardwired 1: a transfer goes most-significant-bit-first (R15, R32). -/
def cfgMsbFirst : Bool := true

/-- CFG.irq, hardwired 0: completion is polled (R15, R122). -/
def cfgIrq : Bool := false

/-- The draw of R94 case 2: the register-select and the nibble captured when they change as enable falls.
A free value, applied to the count of draws already taken. Log entry 6. -/
opaque changedCapture : Nat → Bool × Nibble

/-- The draw of R94 case 3: no event, or a nibble with any register-select, when enable may have fallen out of an
unknown Q. A free value, applied to the count of draws already taken. Log entry 6. -/
opaque unknownCapture : Nat → Option (Bool × Nibble)

end Config

end Sys2Proof
end

