-- ==== Sys2Proof/Syntax.lean ====
section
/-!
DEFINITION. The syntax of the block: one constructor per row of spec/opcode_table.json. The first nine are the
operations (spec/30_encoding.md R57, R61), the next eight the LCD command bytes (R55), the last two the lone
nibbles (R55, R62). Operands are those of a call (R58): a form no request word can write is still an operation.
-/

namespace Sys2Proof

/-- An operation, in the spec's own mnemonics. One bit is a `Bool`: register-select `false` is command mode and
`true` data mode (R10). -/
inductive Instr where
  /-- CONFIGURE (R70) -/
  | configure
  /-- TRANSFER b (R71) -/
  | transfer (b : Byte)
  /-- SET_SIGNAL name, value (R80) -/
  | setSignal (name : Signal) (value : Bool)
  /-- COMMIT (R82) -/
  | commit
  /-- WRITE_NIBBLE value, rs (R90): up to 8 bits are given, `value & 0xF` is used (R52, R58) -/
  | writeNibble (value : Byte) (rs : Bool)
  /-- WRITE_COMMAND b (R91) -/
  | writeCommand (b : Byte)
  /-- WRITE_DATA b (R92) -/
  | writeData (b : Byte)
  /-- GOTO_POSITION column, row (R93): column 8 bits, performed for 0 to 63; row performed for 0 and 1 -/
  | gotoPosition (column : Byte) (row : Nat)
  /-- INIT (R110) -/
  | init
  /-- 0x01, Clear Display (R55) -/
  | lcdClearDisplay
  /-- 0x02, Return Home (R55) -/
  | lcdReturnHome
  /-- 0x06, Entry Mode Set: increment, no shift (R55) -/
  | lcdEntryModeInc
  /-- 0x08, Display Off (R55) -/
  | lcdDisplayOff
  /-- 0x0C, Display On, cursor off, blink off (R55) -/
  | lcdDisplayOn
  /-- 0x28, Function Set: 4-bit, 2-line, 5x8 (R55) -/
  | lcdFunctionSet4Bit
  /-- 0x80 + offset, Set DDRAM Address, row 0 (R55) -/
  | lcdSetDdramRow0 (offset : BitVec 6)
  /-- 0xC0 + offset, Set DDRAM Address, row 1 (R55) -/
  | lcdSetDdramRow1 (offset : BitVec 6)
  /-- the lone nibble 0x3: the upper nibble of Function Set, 8-bit (R55, R62) -/
  | ping8
  /-- the lone nibble 0x2: the upper nibble of Function Set, 4-bit (R55, R62) -/
  | switch4
  deriving DecidableEq, Repr

end Sys2Proof
end

