-- ==== Sys2Proof/WellFormed.lean ====
section
/-!
DEFINITION. Which operations a word of the opcode table can write (spec/30_encoding.md R57). An operation that is not
well formed has no word; it still has its meaning when the host requests it as a call.
-/

namespace Sys2Proof

/-- `i` has a word in the opcode table: WRITE_NIBBLE's value fits the four bits `nnnn`, GOTO_POSITION's row the one
bit `r` ("In `REQ16` such a row cannot be written", R93); every other operand fills its field exactly (R57). -/
def Instr.wellFormed : Instr → Bool
  | .configure => true
  | .transfer _ => true
  | .setSignal _ _ => true
  | .commit => true
  | .writeNibble value _ => decide (value.toNat < 16)
  | .writeCommand _ => true
  | .writeData _ => true
  | .gotoPosition _ row => decide (row < 2)
  | .init => true
  | .lcdClearDisplay => true
  | .lcdReturnHome => true
  | .lcdEntryModeInc => true
  | .lcdDisplayOff => true
  | .lcdDisplayOn => true
  | .lcdFunctionSet4Bit => true
  | .lcdSetDdramRow0 _ => true
  | .lcdSetDdramRow1 _ => true
  | .ping8 => true
  | .switch4 => true

end Sys2Proof
end

