-- ==== Sys2Proof/Decode.lean ====
section
/-!
DEFINITION. The decoder of the opcode table's words and the encoder (spec/30_encoding.md R50, R55, R57, R59). Decoding
is total and names what it rejects; nothing changes it (R60).
-/

namespace Sys2Proof

/-- The signal whose bit position is `s`, the field `sss` of SET_SIGNAL (R57, R80). -/
def signalOf (s : BitVec 3) : Signal :=
  match s.toNat with
  | 0 => .rs
  | 1 => .e
  | 2 => .d4
  | 3 => .d5
  | 4 => .d6
  | 5 => .d7
  | 6 => .unnamed6
  | _ => .unnamed7

/-- The field `sss` that names a signal: its bit position in BUS (R57, R80). -/
def signalField : Signal → BitVec 3
  | .rs => 0
  | .e => 1
  | .d4 => 2
  | .d5 => 3
  | .d6 => 4
  | .d7 => 5
  | .unnamed6 => 6
  | .unnamed7 => 7

/-- `i` where the bits of `mbz` are zero in `w`; a word with one of them set is reserved (R57, R59). -/
def unlessSet (w mbz : BitVec 16) (i : Instr) : Except DecodeReject Instr :=
  if w &&& mbz = 0 then .ok i else .error .mustBeZeroSet

/-- The operation of a request word: selector `REQ[15:12]`, then the fields of its row (R57). -/
def decodeReq16 (w : BitVec 16) : Except DecodeReject Instr :=
  match (w.extractLsb' 12 4).toNat with
  | 0 => unlessSet w 0x0FFF .configure
  | 1 => unlessSet w 0x0F00 (.transfer (w.extractLsb' 0 8))
  | 2 => unlessSet w 0x0FE8 (.setSignal (signalOf (w.extractLsb' 0 3)) (w.getLsbD 4))
  | 3 => unlessSet w 0x0FFF .commit
  | 4 => unlessSet w 0x0FE0 (.writeNibble ((w.extractLsb' 0 4).setWidth 8) (w.getLsbD 4))
  | 5 => unlessSet w 0x0F00 (.writeCommand (w.extractLsb' 0 8))
  | 6 => unlessSet w 0x0F00 (.writeData (w.extractLsb' 0 8))
  | 7 => unlessSet w 0x0E00 (.gotoPosition (w.extractLsb' 0 8) (w.extractLsb' 8 1).toNat)
  | 8 => unlessSet w 0x0FFF .init
  | _ => .error .reservedSelector

/-- The operation of an LCD command byte: the eight rows of R55, and WRITE_COMMAND of the byte for every other value,
which is legal and "sent unchanged" (R59, R91). Log entry 3. -/
def decodeLcd8 (b : Byte) : Instr :=
  if b = 0x01 then .lcdClearDisplay
  else if b = 0x02 then .lcdReturnHome
  else if b = 0x06 then .lcdEntryModeInc
  else if b = 0x08 then .lcdDisplayOff
  else if b = 0x0C then .lcdDisplayOn
  else if b = 0x28 then .lcdFunctionSet4Bit
  else if b.extractLsb' 6 2 = 2 then .lcdSetDdramRow0 (b.extractLsb' 0 6)
  else if b.extractLsb' 6 2 = 3 then .lcdSetDdramRow1 (b.extractLsb' 0 6)
  else .writeCommand b

/-- The operation of a lone nibble: the two rows of R55, and WRITE_NIBBLE n, 0 for every other value (R62, R90).
Log entry 3. -/
def decodeNib4 (n : Nibble) : Instr :=
  if n = 0x3 then .ping8
  else if n = 0x2 then .switch4
  else .writeNibble (n.setWidth 8) false

/-- The operation a word of the opcode table stands for, or the reason it is reserved (R124: ReservedRequest). -/
def decode : TableWord → Except DecodeReject Instr
  | .req16 w => decodeReq16 w
  | .lcd8 b => .ok (decodeLcd8 b)
  | .nib4 n => .ok (decodeNib4 n)

/-- The word of a well-formed operation, written from its row of the table, bit 15 (or the format's top bit) first
(R55, R57). -/
def encode : Instr → TableWord
  | .configure => .req16 0x0000#16
  | .transfer b => .req16 (0x10#8 ++ b)
  | .setSignal name value => .req16 (0x100#11 ++ (BitVec.ofBool value ++ (0#1 ++ signalField name)))
  | .commit => .req16 0x3000#16
  | .writeNibble value rs => .req16 (0x200#11 ++ (BitVec.ofBool rs ++ value.extractLsb' 0 4))
  | .writeCommand b => .req16 (0x50#8 ++ b)
  | .writeData b => .req16 (0x60#8 ++ b)
  | .gotoPosition column row => .req16 (0x38#7 ++ (BitVec.ofNat 1 row ++ column))
  | .init => .req16 0x8000#16
  | .lcdClearDisplay => .lcd8 0x01#8
  | .lcdReturnHome => .lcd8 0x02#8
  | .lcdEntryModeInc => .lcd8 0x06#8
  | .lcdDisplayOff => .lcd8 0x08#8
  | .lcdDisplayOn => .lcd8 0x0C#8
  | .lcdFunctionSet4Bit => .lcd8 0x28#8
  | .lcdSetDdramRow0 offset => .lcd8 (2#2 ++ offset)
  | .lcdSetDdramRow1 offset => .lcd8 (3#2 ++ offset)
  | .ping8 => .nib4 0x3#4
  | .switch4 => .nib4 0x2#4

/-- The word of `nbits` bits that the table numbers `w`: sixteen bits are a request word, eight an LCD command byte,
four a lone nibble. A lone nibble given in a whole byte is told from a command byte where no row of R55 claims the
byte: 0x03 is PING8; 0x02 stays LCD.RETURN_HOME. Log entry 4. -/
def tableWord (nbits w : Nat) : TableWord :=
  if nbits ≤ 4 then .nib4 (BitVec.ofNat 4 w)
  else if nbits ≤ 8 then
    if w = 0x03 then .nib4 0x3 else .lcd8 (BitVec.ofNat 8 w)
  else .req16 (BitVec.ofNat 16 w)

/-- The operation the decoder reads from the table's word of `nbits` bits numbered `w`, none where it is reserved. -/
def decodeTableWord (nbits w : Nat) : Option Instr :=
  match decode (tableWord nbits w) with
  | .ok i => some i
  | .error _ => none

end Sys2Proof
end

