-- ==== Sys2Proof/Machine/State.lean ====
section
/-!
DEFINITION. The state of the block (spec/10_state.md R10 to R20), the events of its trace (R19), the reasons a step can
stop (spec/60_exceptions.md R120, R124), and the state after reset (R23). All of it is plain data.
-/

namespace Sys2Proof.Machine

/-- The level of a line or the content of one register cell: 0, 1, or `unknown`, "the value of a piece of state
nothing has written; it is not a number" (R7, R14, R20, R73). -/
inductive Level where
  | low
  | high
  | unknown
  deriving DecidableEq, Repr

/-- Whether a line is driven (R14). -/
inductive Direction where
  | notDriven
  | output
  deriving DecidableEq, Repr

/-- The three lines of the "physical bus pinout" (R14). -/
inductive Line where
  | sck
  | sdo
  | latch
  deriving DecidableEq, Repr

/-- `PIN.P`: direction and level of one line (R14). -/
structure LineState where
  dir : Direction
  level : Level
  deriving DecidableEq, Repr

/-- `PIN`: the three lines (R14). -/
structure Pins where
  sck : LineState
  sdo : LineState
  latch : LineState
  deriving DecidableEq, Repr

/-- A stage of the external register "as eight cells each 0, 1 or unknown" (R73): SR (R12) or Q (R13). Cell `b0`
is the stage's bit 0. -/
structure Stage where
  b7 : Level
  b6 : Level
  b5 : Level
  b4 : Level
  b3 : Level
  b2 : Level
  b1 : Level
  b0 : Level
  deriving DecidableEq, Repr

/-- A stage nothing has written (R20, R23). -/
def Stage.unknown : Stage :=
  ⟨.unknown, .unknown, .unknown, .unknown, .unknown, .unknown, .unknown, .unknown⟩

/-- `CFG`, the transport configuration (R15); its hardwired fields are constants of Config. -/
structure Cfg where
  /-- CFG.configured: the lines are in "output-drive mode" and at idle -/
  configured : Bool
  /-- CFG.div: "not set until `CONFIGURE`; then `SCK_DIV`" (R23) -/
  div : Option Nat
  deriving DecidableEq, Repr

/-- The events of the trace (R19). -/
inductive Event where
  /-- `Cfg`: CONFIGURE completes -/
  | cfg
  /-- `Bit(b)`: an SCK↑ inside a transfer, with the level of SDO -/
  | bit (b : Bool)
  /-- `Shift(v)`: a transfer completes, `v` the byte shifted -/
  | shift (v : Byte)
  /-- `LatchUp`: LATCH↑ -/
  | latchUp
  /-- `Out(q)`: after Q is loaded, the new Q -/
  | out (q : Stage)
  /-- `LatchDown`: LATCH↓ -/
  | latchDown
  /-- `Delay(T)`: a `delay(T)` begins -/
  | delay (t : Wait)
  /-- `Nibble(rs, n)`: the sink sees Q[1] go 1 to 0 -/
  | nibble (rs : Bool) (n : Nibble)
  deriving DecidableEq, Repr

/-- One entry of the operation stream OPS (R6): an operation as a call, the form in which DOC0 gives it, or a word
of the opcode table (R50, R57). Log entry 3. -/
inductive Request where
  | call (i : Instr)
  | word (w : TableWord)
  deriving DecidableEq, Repr

/-- The state (R10 to R20). -/
structure State where
  /-- BUS, the Bus State (R10) -/
  bus : Byte
  /-- SR, the external register's staging stage (R12) -/
  sr : Stage
  /-- Q, the external register's output stage (R13) -/
  q : Stage
  /-- PIN, the three lines (R14) -/
  pins : Pins
  /-- CFG (R15) -/
  cfg : Cfg
  /-- DONE, the completion flag (R16) -/
  done : Bool
  /-- IP, the index of the operation being performed (R17) -/
  ip : Nat
  /-- LCD_READY (R18) -/
  lcdReady : Bool
  /-- TR, the trace, oldest event first (R19) -/
  trace : List Event
  /-- "the state as having violated hazard rule R153" (R94 case 2). Log entry 19. -/
  hazardR153 : Bool
  /-- OPS, the operation stream, fixed before the run (R6, R43). Log entry 2. -/
  ops : List Request
  /-- INIT_VARIANT, a parameter of the block (R5, R111). Log entry 16. -/
  initVariant : InitVariant
  /-- The model's own: how many draws of the sink have been taken. Log entry 6. -/
  draws : Nat
  deriving DecidableEq, Repr

/-- The block has no exception and no fault: "Error taxonomy is empty by design" (R120). No constructor: no step
faults. Log entry 21. -/
inductive Fault where
  deriving DecidableEq, Repr

/-- The closed list of refusals (R124): what the model does where a request has no meaning. A refused request changes
no state. -/
inductive Refusal where
  /-- NotConfigured, raised by every operation that drives a line other than CONFIGURE and INIT while
  CFG.configured = 0. Safe: the model says nothing of such a run. -/
  | notConfigured
  /-- ReservedSignal, raised by SET_SIGNAL with a bit position MAP does not name. Safe. -/
  | reservedSignal
  /-- RowOutOfRange, raised by GOTO_POSITION with row > 1. Safe. -/
  | rowOutOfRange
  /-- ColumnOutOfRange, raised by GOTO_POSITION with column > 63. Safe. -/
  | columnOutOfRange
  /-- ReservedRequest, raised by the step when the decoder rejects the request word. Safe. -/
  | reservedRequest
  /-- An operation that has no meaning yet, raised by exec's arm. Safe. No arm raises it. -/
  | notModelled (mnemonic : String)
  deriving DecidableEq, Repr

/-- A line after reset: not driven, level unknown (R23). -/
def LineState.reset : LineState := { dir := .notDriven, level := .unknown }

/-- The state after reset: power-on of the whole system (R23, R140). -/
def State.reset : State where
  bus := 0x00
  sr := .unknown
  q := .unknown
  pins := { sck := .reset, sdo := .reset, latch := .reset }
  cfg := { configured := false, div := none }
  done := false
  ip := 0
  lcdReady := false
  trace := []
  hazardR153 := false
  ops := []
  initVariant := .A
  draws := 0

end Sys2Proof.Machine
end

