-- ==== Sys2Proof/Machine/Flags.lean ====
section
/-!
DEFINITION. The block's only flag, DONE (spec/10_state.md R16, R21): there are no condition codes, so no other flag
computation.
-/

namespace Sys2Proof.Machine

/-- `DONE <- v` (R16): cleared at the start of a transfer, set by the hardware after the eighth bit (R71, decisions
D15 and D24). Log entry 13. -/
def setDone (v : Bool) (s : State) : State := { s with done := v }

end Sys2Proof.Machine
end

