-- ==== Sys2Proof/Machine/Operands.lean ====
section
/-!
DEFINITION. Operand assembly (spec/30_encoding.md R51 to R54, R58, R63): the signal map, the bits and fields of BUS, the
nibbles of a byte, the row bases, and the cells of a register stage. Every value is unsigned.
-/

namespace Sys2Proof.Machine

/-- MAP, the Signal-to-Bit Mapping (R11): none for a bit position that has no name (R31, R59). -/
def signalIndex : Signal → Option Nat
  | .rs => some 0
  | .e => some 1
  | .d4 => some 2
  | .d5 => some 3
  | .d6 => some 4
  | .d7 => some 5
  | .unnamed6 => none
  | .unnamed7 => none

/-- `x[i] <- v` (R8): bit `i` of `x` replaced by `v`, the other bits kept. -/
def writeBit (x : Byte) (i : Nat) (v : Bool) : Byte :=
  (x &&& ~~~(1#8 <<< i)) ||| ((BitVec.ofBool v).setWidth 8 <<< i)

/-- `BUS[5:2] <- n`: nibble bit `k` goes to bit `2 + k`, the data line D(4+k) (R33, R52). -/
def writeDataLines (x : Byte) (n : Nibble) : Byte :=
  (x &&& 0xC3) ||| (n.setWidth 8 <<< 2)

/-- The nibble used of a value given as a nibble: `value & 0xF` (R52). -/
def lowNibble (value : Byte) : Nibble := value.extractLsb' 0 4

/-- `b >> 4`, the upper nibble as a value (R53). -/
def upperValue (b : Byte) : Byte := b >>> 4

/-- `b & 0xF`, the lower nibble as a value (R53). -/
def lowerValue (b : Byte) : Byte := b &&& 0x0F

/-- The six meaningful bits of BUS, bits 7:6 forced to zero (R10, R51, R82). -/
def maskBus (b : Byte) : Byte := b &&& 0x3F

/-- ROW_BASE (R5, R54): two rows, none for another. -/
def rowBase : Nat → Option Byte
  | 0 => some 0x80
  | 1 => some 0xC0
  | _ => none

/-- A long command: the whole byte is 0x01 or 0x02 (R56). -/
def isLongCommand (b : Byte) : Bool := b == 0x01 || b == 0x02

/-- The level of a line that carries one bit (R7). -/
def Level.ofBit : Bool → Level
  | false => .low
  | true => .high

/-- The bit a cell holds, none while it is unknown (R20). -/
def Level.bit? : Level → Option Bool
  | .low => some false
  | .high => some true
  | .unknown => none

/-- The stage that holds the byte `v`: cell `i` is bit `i` (R34). -/
def Stage.ofByte (v : Byte) : Stage where
  b7 := .ofBit (v.getLsbD 7)
  b6 := .ofBit (v.getLsbD 6)
  b5 := .ofBit (v.getLsbD 5)
  b4 := .ofBit (v.getLsbD 4)
  b3 := .ofBit (v.getLsbD 3)
  b2 := .ofBit (v.getLsbD 2)
  b1 := .ofBit (v.getLsbD 1)
  b0 := .ofBit (v.getLsbD 0)

/-- The bits of a stage, bit 7 first, none unless all eight cells are known. -/
def Stage.bits? (c : Stage) : Option (List Bool) :=
  [c.b7, c.b6, c.b5, c.b4, c.b3, c.b2, c.b1, c.b0].mapM Level.bit?

/-- The byte a stage holds, none unless all eight cells are known (R20). -/
def Stage.byte? (c : Stage) : Option Byte :=
  c.bits?.map fun bits => BitVec.ofNat 8 (bits.foldl (fun n b => 2 * n + b.toNat) 0)

/-- `{ c[6:0], l }`: the new level enters at bit 0, every older cell moves one place up, the old bit 7 is lost
(R44, R73). -/
def Stage.shiftIn (c : Stage) (l : Level) : Stage where
  b7 := c.b6
  b6 := c.b5
  b5 := c.b4
  b4 := c.b3
  b3 := c.b2
  b2 := c.b1
  b1 := c.b0
  b0 := l

end Sys2Proof.Machine
end

