-- ==== Sys2Proof/Machine/Ops.lean ====
section
/-!
DEFINITION. The named operations the meanings are written over: the primitives of spec/00_scope.md R8, the external
register's reactions (spec/40_transport.md R73, spec/41_bus.md R81), the LCD sink (spec/42_lcd_serializer.md R94), the bodies
of the operations that other operations `call`, and taking a request from the operation stream (spec/10_state.md R17).
There is no exception to take and no return from one (spec/60_exceptions.md R120, R126). Rule numbers name the rules of spec/.
-/

namespace Sys2Proof.Machine

/-! ### State updates and the primitives of R8 -/

/-- `BUS <- v` (R10). -/
def setBus (v : Byte) (s : State) : State := { s with bus := v }

/-- `emit(e)`: append `e` to the trace (R8, R19). -/
def emit (e : Event) (s : State) : State := { s with trace := s.trace ++ [e] }

/-- `delay(T)`: block for at least `T` and append `Delay(T)` (R8, R160). Log entry 15. -/
def delay (t : Wait) (s : State) : State := emit (.delay t) s

/-- One line of PIN (R14). -/
def Pins.get (p : Pins) : Line → LineState
  | .sck => p.sck
  | .sdo => p.sdo
  | .latch => p.latch

/-- PIN with the level of one line replaced (R14). -/
def Pins.setLevel (p : Pins) (l : Line) (v : Level) : Pins :=
  match l with
  | .sck => { p with sck := { p.sck with level := v } }
  | .sdo => { p with sdo := { p.sdo with level := v } }
  | .latch => { p with latch := { p.latch with level := v } }

/-- `PIN.P.level <- v` without a reaction (R14). -/
def setLevel (l : Line) (v : Level) (s : State) : State := { s with pins := s.pins.setLevel l v }

/-! ### The LCD sink (R94) -/

/-- What the sink makes of a LATCH↑ that takes Q from one value to another: the four cases of R94. -/
inductive Capture where
  /-- case 4: no event -/
  | nothing
  /-- case 1: enable falls with register-select and data unchanged -/
  | nibble (rs : Bool) (n : Nibble)
  /-- case 2: enable falls while register-select or data change: a draw, and hazard R153 violated -/
  | changed
  /-- case 3: enable may have fallen out of an unknown Q: a draw between no event and any nibble -/
  | fromUnknown
  deriving DecidableEq, Repr

/-- The case of R94 for known bytes `o` before and `n` after the LATCH↑. -/
def captureKnown (o n : Byte) : Capture :=
  if o.getLsbD 1 && !n.getLsbD 1 then
    if o.getLsbD 0 = n.getLsbD 0 ∧ o.extractLsb' 2 4 = n.extractLsb' 2 4 then
      .nibble (o.getLsbD 0) (o.extractLsb' 2 4)
    else .changed
  else .nothing

/-- The case of R94. A stage with an unknown cell counts as unknown; COMMIT always latches a known byte, and the last
line, which no operation reaches, admits every outcome. Log entry 7. -/
def capture (qOld qNew : Stage) : Capture :=
  match qOld.byte?, qNew.byte? with
  | some o, some n => captureKnown o n
  | none, some n => if n.getLsbD 1 then .nothing else .fromUnknown
  | _, none => .fromUnknown

/-- The events the sink appends, `k` the count of draws already taken (R94). Log entry 6. -/
def captureEvents (c : Capture) (k : Nat) : List Event :=
  match c with
  | .nothing => []
  | .nibble rs n => [.nibble rs n]
  | .changed => [.nibble (Config.changedCapture k).1 (Config.changedCapture k).2]
  | .fromUnknown => (Config.unknownCapture k).toList.map fun d => .nibble d.1 d.2

/-- How many draws a case takes. -/
def captureDraws : Capture → Nat
  | .nothing => 0
  | .nibble _ _ => 0
  | .changed => 1
  | .fromUnknown => 1

/-- The sink looks at a LATCH↑ from `qOld` to `qNew` (R94). -/
def sinkLooks (qOld qNew : Stage) (s : State) : State :=
  { s with
    trace := s.trace ++ captureEvents (capture qOld qNew) s.draws
    hazardR153 := s.hazardR153 || capture qOld qNew == .changed
    draws := s.draws + captureDraws (capture qOld qNew) }

/-! ### The external register's reactions, and driving a line -/

/-- The register's reaction to SCK↑: `SR <- { SR[6:0], PIN.SDO.level }` (R73). -/
def clockRise (s : State) : State := { s with sr := s.sr.shiftIn s.pins.sdo.level }

/-- The register's reaction to LATCH↑: all of SR into Q at once, `Out(Q)`, then the sink looks (R81). -/
def latchRise (s : State) : State :=
  sinkLooks s.q s.sr (emit (.out s.sr) { s with q := s.sr })

/-- `pin(P) <- v` (R8): drive line `P`; the register reacts to the edge this makes, a 0-to-1 or a 1-to-0 transition
(R7). A transition from `unknown` is no edge (R70 corner case (a)). Log entry 22. -/
def pin (p : Line) (v : Level) (s : State) : State :=
  match p, (s.pins.get p).level, v with
  | .sck, .low, .high => clockRise (setLevel p v s)
  | .latch, .low, .high => latchRise (emit .latchUp (setLevel p v s))
  | .latch, .high, .low => emit .latchDown (setLevel p v s)
  | _, _, _ => setLevel p v s

/-! ### The bodies of the operations -/

/-- The body of CONFIGURE (R70). SDO is left without a level (R14). Log entry 10. -/
def configureBody (s : State) : State :=
  emit .cfg
    { s with
      pins :=
        { sck := { dir := .output, level := .low }
          sdo := { dir := .output, level := s.pins.sdo.level }
          latch := { dir := .output, level := .low } }
      cfg := { configured := true, div := some Config.sckDiv } }

/-- One bit of a transfer: SDO set up while SCK is 0, SCK up, SCK down (R72). -/
def shiftBit (b : Bool) (s : State) : State :=
  pin .sck .low (emit (.bit b) (pin .sck .high (pin .sdo (.ofBit b) s)))

/-- The order in which a transfer sends the bits of a byte: bit 7 first where CFG.msb_first is 1, as it always is
(R15, R32). -/
def transferOrder : List Nat :=
  if Config.cfgMsbFirst then [7, 6, 5, 4, 3, 2, 1, 0] else [0, 1, 2, 3, 4, 5, 6, 7]

/-- The body of TRANSFER (R71) at the level of the lines (R72): SCK at rest, eight bits, the hardware sets DONE, the
poll ends, `Shift(b)`. SDO has no specified level afterwards (R14). Log entries 10, 11 and 13. -/
def transferBody (b : Byte) (s : State) : State :=
  let s := pin .sck .low (setDone false s)
  let s := transferOrder.foldl (fun t i => shiftBit (b.getLsbD i) t) s
  emit (.shift b) (setDone true (setLevel .sdo .unknown s))

/-- The body of COMMIT (R82): mask, latch held inactive, transfer, latch pulse. -/
def commitBody (s : State) : State :=
  let s := setBus (maskBus s.bus) s
  let s := pin .latch .low s
  let s := transferBody s.bus s
  let s := pin .latch .high s
  let s := delay .latch s
  pin .latch .low s

/-- The body of WRITE_NIBBLE (R90): load register-select and data with enable low, then commits (a), (b), (c). -/
def writeNibbleBody (value : Byte) (rs : Bool) (s : State) : State :=
  let s := setBus (writeBit s.bus 0 rs) s
  let s := setBus (writeDataLines s.bus 0) s
  let s := setBus (writeDataLines s.bus (lowNibble value)) s
  let s := setBus (writeBit s.bus 1 false) s
  let s := commitBody s
  let s := delay .addressSetup s
  let s := setBus (writeBit s.bus 1 true) s
  let s := commitBody s
  let s := setBus (writeBit s.bus 1 false) s
  let s := commitBody s
  delay .exec s

/-- Both nibbles of an LCD byte, upper first, with one register-select (R53). -/
def writeByteBody (b : Byte) (rs : Bool) (s : State) : State :=
  writeNibbleBody (lowerValue b) rs (writeNibbleBody (upperValue b) rs s)

/-- The body of WRITE_COMMAND (R91): both nibbles in command mode, then T_LONG if the command is long (R56). -/
def writeCommandBody (b : Byte) (s : State) : State :=
  let s := writeByteBody b false s
  if isLongCommand b then delay .long s else s

/-- INIT_CMDS: the command list of step 4 (R111). -/
def initCommands : InitVariant → List Byte
  | .A => [0x28, 0x08, 0x01, 0x06, 0x0C]
  | .B => [0x28, 0x0C, 0x06, 0x01]

/-- The nibble of the 8-bit legacy ping (R55, R110). Log entry 18. -/
def pingNibble : Byte := 0x3

/-- The nibble of the switch to 4-bit (R55, R110). -/
def switchNibble : Byte := 0x2

/-- The body of INIT (R110). -/
def initBody (s : State) : State :=
  let s := setBus 0x00 (configureBody s)
  let s := delay .power s
  let s := delay .ping1 (writeNibbleBody pingNibble false s)
  let s := delay .ping2 (writeNibbleBody pingNibble false s)
  let s := delay .ping3 (writeNibbleBody pingNibble false s)
  let s := writeNibbleBody switchNibble false s
  let s := (initCommands s.initVariant).foldl (fun t c => writeCommandBody c t) s
  { s with lcdReady := true }

/-! ### Refusing, and taking a request from the stream -/

/-- `if CFG.configured = 0 then refuse(NotConfigured)`, checked before any state is written (R124, decision D10). -/
def ifConfigured (s : State) (body : State → State) : Host.Outcome State Fault Refusal :=
  if s.cfg.configured then .next (body s) else .refused .notConfigured

/-- The request at IP, none at the end of the run (R17, R142). -/
def currentRequest (s : State) : Option Request := s.ops[s.ip]?

/-- The operation a request stands for (R57), or the refusal ReservedRequest (R59, R124). -/
def requestInstr : Request → Except Refusal Instr
  | .call i => .ok i
  | .word w =>
    match decode w with
    | .ok i => .ok i
    | .error _ => .error .reservedRequest

/-- `IP <- IP + 1`, which ends every operation taken from OPS (R17). -/
def advanceIp (s : State) : State := { s with ip := s.ip + 1 }

/-- What the step answers once an operation taken from OPS has: IP advances, unless it was refused (R17). -/
def finishOperation : Host.Outcome State Fault Refusal → Host.Outcome State Fault Refusal
  | .next s => .next (advanceIp s)
  | .fault f => .fault f
  | .refused r => .refused r

/-- OPS with `r` at position IP, extended to reach it where it is shorter: loading one request from outside (R143).
Log entry 2. -/
def placeRequest (r : Request) (s : State) : State :=
  { s with ops := (s.ops ++ List.replicate (s.ip + 1 - s.ops.length) r).set s.ip r }

end Sys2Proof.Machine
end

