-- ==== Sys2Proof/Machine/Bus.lean ====
section
/-!
DEFINITION. The Shift-Register Bus Abstraction: SET_SIGNAL and COMMIT (spec/41_bus.md R80 to R85).
-/

namespace Sys2Proof.Machine

/-- SET_SIGNAL name, value (R80): one bit of BUS; a name MAP does not have is refused (decision D14). It touches memory
only and is not refused before CONFIGURE (decision D10). -/
def execSetSignal (name : Signal) (value : Bool) (s : State) : Host.Outcome State Fault Refusal :=
  match signalIndex name with
  | some i => .next (setBus (writeBit s.bus i value) s)
  | none => .refused .reservedSignal

/-- COMMIT (R82). -/
def execCommit (s : State) : Host.Outcome State Fault Refusal := ifConfigured s commitBody

end Sys2Proof.Machine
end

