-- ==== Sys2Proof/Machine/Init.lean ====
section
/-!
DEFINITION. The initialisation sequence INIT and its lone nibbles PING8 and SWITCH4 (spec/43_lcd_init.md R110, R111,
spec/30_encoding.md R55, R62).
-/

namespace Sys2Proof.Machine

/-- INIT (R110): never refused, since it configures the transport itself. -/
def execInit (s : State) : Host.Outcome State Fault Refusal := .next (initBody s)

/-- PING8 (R62): WRITE_NIBBLE 0x3, 0. -/
def execPing8 (s : State) : Host.Outcome State Fault Refusal :=
  ifConfigured s (writeNibbleBody pingNibble false)

/-- SWITCH4 (R62): WRITE_NIBBLE 0x2, 0. -/
def execSwitch4 (s : State) : Host.Outcome State Fault Refusal :=
  ifConfigured s (writeNibbleBody switchNibble false)

end Sys2Proof.Machine
end

