-- ==== Sys2Proof/Machine/Lcd.lean ====
section
/-!
DEFINITION. The HD44780 nibble serializer: WRITE_NIBBLE, WRITE_COMMAND, WRITE_DATA, GOTO_POSITION
(spec/42_lcd_serializer.md R90 to R93).
-/

namespace Sys2Proof.Machine

/-- WRITE_NIBBLE value, rs (R90): "exactly one enable pulse bracketing unchanged data bits". -/
def execWriteNibble (value : Byte) (rs : Bool) (s : State) : Host.Outcome State Fault Refusal :=
  ifConfigured s (writeNibbleBody value rs)

/-- WRITE_COMMAND b (R91). -/
def execWriteCommand (b : Byte) (s : State) : Host.Outcome State Fault Refusal :=
  ifConfigured s (writeCommandBody b)

/-- WRITE_DATA b (R92): both nibbles in data mode, no wait beyond theirs. -/
def execWriteData (b : Byte) (s : State) : Host.Outcome State Fault Refusal :=
  ifConfigured s (writeByteBody b true)

/-- GOTO_POSITION column, row (R93): the checks in the order of the pseudocode (R123), then the command byte
ROW_BASE[row] + column, which does not carry (R54). -/
def execGotoPosition (column : Byte) (row : Nat) (s : State) : Host.Outcome State Fault Refusal :=
  if s.cfg.configured then
    match rowBase row with
    | none => .refused .rowOutOfRange
    | some base =>
      if 63 < column.toNat then .refused .columnOutOfRange
      else .next (writeCommandBody (base + column) s)
  else .refused .notConfigured

end Sys2Proof.Machine
end

