-- ==== Sys2Proof/Machine/LcdCommands.lean ====
section
/-!
DEFINITION. The LCD command bytes of the opcode table (spec/30_encoding.md R55): operand values of WRITE_COMMAND, whose
"semantics on the block's side is that of" spec/42_lcd_serializer.md R91.
-/

namespace Sys2Proof.Machine

/-- LCD.CLEAR_DISPLAY, a long command (R55, R56). -/
def execLcdClearDisplay (s : State) : Host.Outcome State Fault Refusal :=
  ifConfigured s (writeCommandBody 0x01)

/-- LCD.RETURN_HOME, a long command (R55, R56). -/
def execLcdReturnHome (s : State) : Host.Outcome State Fault Refusal :=
  ifConfigured s (writeCommandBody 0x02)

/-- LCD.ENTRY_MODE_INC (R55). -/
def execLcdEntryModeInc (s : State) : Host.Outcome State Fault Refusal :=
  ifConfigured s (writeCommandBody 0x06)

/-- LCD.DISPLAY_OFF (R55). -/
def execLcdDisplayOff (s : State) : Host.Outcome State Fault Refusal :=
  ifConfigured s (writeCommandBody 0x08)

/-- LCD.DISPLAY_ON (R55). -/
def execLcdDisplayOn (s : State) : Host.Outcome State Fault Refusal :=
  ifConfigured s (writeCommandBody 0x0C)

/-- LCD.FUNCTION_SET_4BIT (R55). -/
def execLcdFunctionSet4Bit (s : State) : Host.Outcome State Fault Refusal :=
  ifConfigured s (writeCommandBody 0x28)

/-- LCD.SET_DDRAM_ROW0: 0x80 + offset, offset 0 to 63 (R55). -/
def execLcdSetDdramRow0 (offset : BitVec 6) (s : State) : Host.Outcome State Fault Refusal :=
  ifConfigured s (writeCommandBody (0x80 + offset.setWidth 8))

/-- LCD.SET_DDRAM_ROW1: 0xC0 + offset, offset 0 to 63 (R55). -/
def execLcdSetDdramRow1 (offset : BitVec 6) (s : State) : Host.Outcome State Fault Refusal :=
  ifConfigured s (writeCommandBody (0xC0 + offset.setWidth 8))

end Sys2Proof.Machine
end

