-- ==== Sys2Proof/Machine/Transport.lean ====
section
/-!
DEFINITION. The Serial Transport: CONFIGURE and TRANSFER (spec/40_transport.md R70 to R75).
-/

namespace Sys2Proof.Machine

/-- CONFIGURE (R70): "assumed to always succeed". -/
def execConfigure (s : State) : Host.Outcome State Fault Refusal := .next (configureBody s)

/-- TRANSFER b (R71): SR takes the byte, Q and BUS do not change. -/
def execTransfer (b : Byte) (s : State) : Host.Outcome State Fault Refusal :=
  ifConfigured s (transferBody b)

end Sys2Proof.Machine
end

