-- ==== Sys2Proof/Machine/Dispatch.lean ====
section
/-!
DEFINITION. The meaning of each operation, one arm per constructor: the operation performed by `call`, which leaves IP
alone (spec/00_scope.md R8, spec/10_state.md R17).
-/

namespace Sys2Proof.Machine

def exec (i : Instr) (s : State) : Host.Outcome State Fault Refusal :=
  match i with
  | .configure => Sys2Proof.Machine.execConfigure s
  | .transfer b => Sys2Proof.Machine.execTransfer b s
  | .setSignal name value => Sys2Proof.Machine.execSetSignal name value s
  | .commit => Sys2Proof.Machine.execCommit s
  | .writeNibble value rs => Sys2Proof.Machine.execWriteNibble value rs s
  | .writeCommand b => Sys2Proof.Machine.execWriteCommand b s
  | .writeData b => Sys2Proof.Machine.execWriteData b s
  | .gotoPosition column row => Sys2Proof.Machine.execGotoPosition column row s
  | .init => Sys2Proof.Machine.execInit s
  | .lcdClearDisplay => Sys2Proof.Machine.execLcdClearDisplay s
  | .lcdReturnHome => Sys2Proof.Machine.execLcdReturnHome s
  | .lcdEntryModeInc => Sys2Proof.Machine.execLcdEntryModeInc s
  | .lcdDisplayOff => Sys2Proof.Machine.execLcdDisplayOff s
  | .lcdDisplayOn => Sys2Proof.Machine.execLcdDisplayOn s
  | .lcdFunctionSet4Bit => Sys2Proof.Machine.execLcdFunctionSet4Bit s
  | .lcdSetDdramRow0 offset => Sys2Proof.Machine.execLcdSetDdramRow0 offset s
  | .lcdSetDdramRow1 offset => Sys2Proof.Machine.execLcdSetDdramRow1 offset s
  | .ping8 => Sys2Proof.Machine.execPing8 s
  | .switch4 => Sys2Proof.Machine.execSwitch4 s

end Sys2Proof.Machine
end

