-- ==== Sys2Proof/Machine/Step.lean ====
section
/-!
DEFINITION. One step of the driver: one operation of the stream, run to completion (spec/00_scope.md R6, spec/10_state.md
R17). It only calls the operations of Machine/Ops.lean.
-/

namespace Sys2Proof.Machine

/-- One step: at the end of the stream the idle loop changes nothing (R17, R132, R142; log entry 5); otherwise the
operation at IP is performed and IP advances, or it is refused and the run stops there (R17, R124). -/
def step (s : State) : Host.Outcome State Fault Refusal :=
  match currentRequest s with
  | none => .next s
  | some r =>
    match requestInstr r with
    | .ok i => finishOperation (exec i s)
    | .error reason => .refused reason

/-- `s` with the table's word of `nbits` bits numbered `w` as the request at IP, so that the next step runs it: it
stands for the host's handing over OPS (R143). Log entries 2 and 4. -/
def State.withFetchWord (s : State) (nbits w : Nat) : State :=
  placeRequest (.word (Sys2Proof.tableWord nbits w)) s

end Sys2Proof.Machine
end

