-- ==== Sys2Proof/Safety.lean ====
section
/-!
DEFINITION. The terms in which claims speak of a run: projections of the trace (spec/10_state.md R19), the bytes and events
an operation appends (spec/30_encoding.md R51, spec/41_bus.md R82, spec/42_lcd_serializer.md R90), the sink's pairing of
nibbles (R95), the invariants (spec/10_state.md R24), and what a finished run is (spec/70_reset_and_hazards.md R142).
-/

namespace Sys2Proof.Safety

open Sys2Proof.Machine

/-! ### Projections of the trace -/

/-- The trace as a byte-level model keeps it: without the Bit events (R19, R82). -/
def byteTrace (tr : List Event) : List Event :=
  tr.filter fun e => match e with
    | .bit _ => false
    | _ => true

/-- "The history of what the LCD saw": the Out events (R19). -/
def outs (tr : List Event) : List Stage :=
  tr.filterMap fun e => match e with
    | .out q => some q
    | _ => none

/-- The bytes shifted: the Shift events (R19). -/
def shifts (tr : List Event) : List Byte :=
  tr.filterMap fun e => match e with
    | .shift v => some v
    | _ => none

/-- The bits clocked out: the Bit events (R19, R72). -/
def bits (tr : List Event) : List Bool :=
  tr.filterMap fun e => match e with
    | .bit b => some b
    | _ => none

/-- DOC0's "nibble sequence": the Nibble events (R19). -/
def nibbles (tr : List Event) : List (Bool × Nibble) :=
  tr.filterMap fun e => match e with
    | .nibble rs n => some (rs, n)
    | _ => none

/-- The waits taken: the Delay events (R19). -/
def waits (tr : List Event) : List Wait :=
  tr.filterMap fun e => match e with
    | .delay t => some t
    | _ => none

/-- How long the driver blocks in a list of waits at least, with the values this implementation gives them, in
nanoseconds (R160, R161). -/
def waitTime (ws : List Wait) : Nat := (ws.map Config.waitNs).sum

/-- The sum of the spec's lower bounds of a list of waits, in nanoseconds (R161). -/
def boundTime (ws : List Wait) : Nat := (ws.map Config.waitBound).sum

/-- The duration of a transfer in periods of the reference clock: 8 periods of the serial clock, each
SCK_DIV / F_REF (R162). No rule depends on it. -/
def transferRefPeriods : Nat := 8 * Config.sckDiv

/-! ### Bytes and events of an operation -/

/-- Format BUS8 (R51): `RS<<0 | E<<1 | (nibble & 0xF)<<2`. -/
def bus8 (rs e : Bool) (n : Nibble) : Byte :=
  (BitVec.ofBool rs).setWidth 8 ||| (BitVec.ofBool e).setWidth 8 <<< 1 ||| n.setWidth 8 <<< 2

/-- The Bit events of a transfer of `v`: bit 7 first (R32, R72). -/
def bitEvents (v : Byte) : List Event :=
  [.bit (v.getLsbD 7), .bit (v.getLsbD 6), .bit (v.getLsbD 5), .bit (v.getLsbD 4),
    .bit (v.getLsbD 3), .bit (v.getLsbD 2), .bit (v.getLsbD 1), .bit (v.getLsbD 0)]

/-- The trace of a commit of `v`, `sink` what the sink makes of it: "bit-level models put eight `Bit` events before
`Shift`" (R19, R82). -/
def commitEvents (v : Byte) (sink : List Event) : List Event :=
  bitEvents v ++ [.shift v, .latchUp, .out (.ofByte v)] ++ sink ++ [.delay .latch, .latchDown]

/-- The trace of a nibble write, `sink` what the sink makes of commit (a) (R90). -/
def nibbleEvents (rs : Bool) (n : Nibble) (sink : List Event) : List Event :=
  commitEvents (bus8 rs false n) sink ++ [.delay .addressSetup] ++ commitEvents (bus8 rs true n) []
    ++ commitEvents (bus8 rs false n) [.nibble rs n] ++ [.delay .exec]

/-- The trace of an LCD byte, upper nibble first (R33, R53). -/
def byteEvents (rs : Bool) (b : Byte) (sink : List Event) : List Event :=
  nibbleEvents rs (b.extractLsb' 4 4) sink ++ nibbleEvents rs (b.extractLsb' 0 4) []

/-- The trace of a command byte (R91): a long command ends with T_LONG (R56). -/
def commandEvents (b : Byte) (sink : List Event) : List Event :=
  byteEvents false b sink ++ if b = 0x01 ∨ b = 0x02 then [.delay .long] else []

/-- The trace of INIT (R110). -/
def initEvents (v : InitVariant) (sink : List Event) : List Event :=
  [.cfg, .delay .power] ++ nibbleEvents false 0x3 sink ++ [.delay .ping1]
    ++ nibbleEvents false 0x3 [] ++ [.delay .ping2] ++ nibbleEvents false 0x3 [] ++ [.delay .ping3]
    ++ nibbleEvents false 0x2 [] ++ (initCommands v).flatMap fun c => commandEvents c []

/-- The lines at idle, directions kept: SCK and LATCH at 0 (R14), SDO without a specified level (log entry 10). -/
def idlePins (p : Pins) : Pins :=
  { sck := { dir := p.sck.dir, level := .low }
    sdo := { dir := p.sdo.dir, level := .unknown }
    latch := { dir := p.latch.dir, level := .low } }

/-- The LatchDown event of a COMMIT that finds LATCH at 1, which no run reaches (R24 item 2). Log entry 22. -/
def latchFall (s : State) : List Event :=
  if s.pins.latch.level = .high then [.latchDown] else []

/-- What the sink makes of a commit of `v` from `s` (R94). -/
def firstCapture (s : State) (v : Byte) : Capture := capture s.q (.ofByte v)

/-- The events of `firstCapture`. -/
def firstSink (s : State) (v : Byte) : List Event := captureEvents (firstCapture s v) s.draws

/-- `s` after an operation whose first commit is of `first` and whose last is of `last`, and which appends `ev`: the
five pieces of state a commit writes (R82), the trace, and what the sink's draw leaves. Nothing else changes. -/
def committed (s : State) (first last : Byte) (ev : List Event) : State :=
  { s with
    bus := last
    sr := .ofByte last
    q := .ofByte last
    pins := idlePins s.pins
    done := true
    trace := s.trace ++ ev
    hazardR153 := s.hazardR153 || firstCapture s first == .changed
    draws := s.draws + captureDraws (firstCapture s first) }

/-- `s` after a nibble write of `n` (R90). -/
def afterNibble (n : Nibble) (rs : Bool) (s : State) : State :=
  committed s (bus8 rs false n) (bus8 rs false n)
    (latchFall s ++ nibbleEvents rs n (firstSink s (bus8 rs false n)))

/-- `s` after both nibbles of an LCD byte (R53, R92). -/
def afterByte (b : Byte) (rs : Bool) (s : State) : State :=
  committed s (bus8 rs false (b.extractLsb' 4 4)) (bus8 rs false (b.extractLsb' 0 4))
    (latchFall s ++ byteEvents rs b (firstSink s (bus8 rs false (b.extractLsb' 4 4))))

/-- `s` after a command byte (R91). -/
def afterCommand (b : Byte) (s : State) : State :=
  committed s (bus8 false false (b.extractLsb' 4 4)) (bus8 false false (b.extractLsb' 0 4))
    (latchFall s ++ commandEvents b (firstSink s (bus8 false false (b.extractLsb' 4 4))))

/-- "Last byte committed, so `BUS = Q` after `INIT`" (R112). -/
def initLast : InitVariant → Byte
  | .A => 0x30
  | .B => 0x04

/-- `s` after INIT (R110, R112, R113); 0x0C is the first byte committed. -/
def afterInit (s : State) : State :=
  { s with
    bus := initLast s.initVariant
    sr := .ofByte (initLast s.initVariant)
    q := .ofByte (initLast s.initVariant)
    pins :=
      { sck := { dir := .output, level := .low }
        sdo := { dir := .output, level := .unknown }
        latch := { dir := .output, level := .low } }
    cfg := { configured := true, div := some Config.sckDiv }
    done := true
    lcdReady := true
    trace := s.trace ++ initEvents s.initVariant (firstSink s 0x0C)
    hazardR153 := s.hazardR153 || firstCapture s 0x0C == .changed
    draws := s.draws + captureDraws (firstCapture s 0x0C) }

/-! ### The operations, grouped -/

/-- The operations that touch the outputs only through WRITE_NIBBLE (R96): all but CONFIGURE, TRANSFER, SET_SIGNAL and
COMMIT. -/
def writesNibbles : Instr → Bool
  | .configure => false
  | .transfer _ => false
  | .setSignal _ _ => false
  | .commit => false
  | .writeNibble _ _ => true
  | .writeCommand _ => true
  | .writeData _ => true
  | .gotoPosition _ _ => true
  | .init => true
  | .lcdClearDisplay => true
  | .lcdReturnHome => true
  | .lcdEntryModeInc => true
  | .lcdDisplayOff => true
  | .lcdDisplayOn => true
  | .lcdFunctionSet4Bit => true
  | .lcdSetDdramRow0 _ => true
  | .lcdSetDdramRow1 _ => true
  | .ping8 => true
  | .switch4 => true

/-- The operations refused before CONFIGURE (R124): those that drive a line, other than CONFIGURE and INIT. -/
def needsConfigured (i : Instr) : Bool :=
  (writesNibbles i || match i with
    | .transfer _ => true
    | .commit => true
    | _ => false) && i != .init

/-- The request has no meaning in `s` (R124): an operation that drives a line before CONFIGURE (decision D10), a signal
without a name (D14), a row above 1 or a column above 63 (D13). -/
def HasNoMeaning (i : Instr) (s : State) : Prop :=
  (s.cfg.configured = false ∧ needsConfigured i = true)
    ∨ (∃ v, i = .setSignal .unnamed6 v ∨ i = .setSignal .unnamed7 v)
    ∨ ∃ column row, i = .gotoPosition column row ∧ (1 < row ∨ 63 < column.toNat)

/-- Mask and match of the nine REQ16 rows, as the opcode table gives them (R57). -/
def req16Rows : List (BitVec 16 × BitVec 16) :=
  [(0xFFFF, 0x0000), (0xFF00, 0x1000), (0xFFE8, 0x2000), (0xFFFF, 0x3000), (0xFFE0, 0x4000), (0xFF00, 0x5000),
    (0xFF00, 0x6000), (0xFE00, 0x7000), (0xFFFF, 0x8000)]

/-! ### Performing a list of operations -/

/-- The operations of a list performed in order, each to completion, as `call` does (R8, R62). -/
def callAll : List Instr → State → Host.Outcome State Fault Refusal
  | [], s => .next s
  | i :: is, s =>
    match exec i s with
    | .next t => callAll is t
    | .fault f => .fault f
    | .refused r => .refused r

/-- WRITE_STRING (R62, R114): one WRITE_DATA per character. -/
def writeString (chars : List Byte) : List Instr := chars.map .writeData

/-- The SET_SIGNALs of a list of named signals and values (R83). -/
def setSignals (xs : List (Signal × Bool)) : List Instr := xs.map fun x => .setSignal x.1 x.2

/-! ### The sink's pairing (R95) -/

/-- The nibbles taken two at a time, upper first: `(r, {u, l})`. None where the stream is out of step: an odd count,
or two nibbles of a pair with different register-selects (R95, R152). -/
def lcdBytes : List (Bool × Nibble) → Option (List (Bool × Byte))
  | [] => some []
  | [_] => none
  | (r, u) :: (r', l) :: rest =>
    if r = r' then (lcdBytes rest).map fun bs => (r, u ++ l) :: bs else none

/-- Listening for the switch of INIT, one event on. T_PING3 is taken by INIT alone, directly before its fourth nibble
(R110, R161): it starts the list afresh, and later nibbles are added to it; before the first it is none. -/
def hearEvent (heard : Option (List (Bool × Nibble))) : Event → Option (List (Bool × Nibble))
  | .delay .ping3 => some []
  | .nibble rs n => heard.map (· ++ [(rs, n)])
  | _ => heard

/-- The Nibble events after the T_PING3 of the last INIT, its fourth nibble first. Log entry 28. -/
def nibblesFromSwitch (tr : List Event) : Option (List (Bool × Nibble)) := tr.foldl hearEvent none

/-- The Nibble events "after the fourth nibble of `INIT` (three pings and the switch)" (R95), none where no INIT has sent
it. Log entry 28. -/
def nibblesAfterSwitch (tr : List Event) : Option (List (Bool × Nibble)) := (nibblesFromSwitch tr).bind List.tail?

/-- "The sink's view of a byte": the LcdBytes of a trace (R95). None before INIT, where the sink has no such view, and
where the stream is out of step (R152). -/
def lcdBytesSeen (tr : List Event) : Option (List (Bool × Byte)) := (nibblesAfterSwitch tr).bind lcdBytes

/-- INIT_CMDS as the sink sees them: the bytes of the variant's list, in command mode (R95, R111). -/
def initBytesSeen (v : InitVariant) : List (Bool × Byte) := (initCommands v).map fun c => (false, c)

/-! ### Invariants -/

/-- Q is known and its enable is low (R24 item 3, R96). -/
def OutputsEnableLow (s : State) : Prop := ∃ o : Byte, s.q = .ofByte o ∧ o.getLsbD 1 = false

/-- A stage holds a committed byte, BUS8 with bits 7:6 zero (R51, R85). -/
def IsBus8 (c : Stage) : Prop := ∃ v : Byte, v.toNat < 64 ∧ c = .ofByte v

/-- The published bytes are whole enable pulses: enable low, enable high, enable low, with register-select and data
unchanged (R96). -/
def EnablePulses : List Stage → Prop
  | [] => True
  | a :: b :: c :: rest =>
    (∃ v : Byte, v.toNat < 64 ∧ v.getLsbD 1 = false ∧ a = .ofByte v ∧ b = .ofByte (v ||| 0x02) ∧ c = .ofByte v)
      ∧ EnablePulses rest
  | _ => False

/-- The invariants between operations (R24, with R13, R20, R23, R40 item 2, R85 and R157). -/
structure Inv (s : State) : Prop where
  /-- R24 item 1 -/
  bus_spare_zero : s.bus.toNat < 64
  /-- R24 item 2 -/
  lines_idle : s.cfg.configured = true → s.pins.latch.level = .low ∧ s.pins.sck.level = .low
  /-- R14, R70: a configured block drives its three lines -/
  lines_driven : s.cfg.configured = true →
    s.pins.sck.dir = .output ∧ s.pins.sdo.dir = .output ∧ s.pins.latch.dir = .output
  /-- R23, R70: before CONFIGURE nothing but BUS and IP has changed -/
  unconfigured : s.cfg.configured = false →
    s.pins = State.reset.pins ∧ s.sr = .unknown ∧ s.q = .unknown ∧ s.trace = [] ∧ s.done = false
      ∧ s.lcdReady = false ∧ s.cfg.div = none
  /-- R40 item 2: Q holds the last byte published, and is unknown before the first -/
  q_last_out : s.q = (outs s.trace).getLast?.getD .unknown
  /-- R85, R157: every published byte is a BUS8 byte -/
  outs_bus8 : ∀ c ∈ outs s.trace, IsBus8 c
  /-- R17: IP indexes OPS or stands at its end -/
  ip_in_stream : s.ip ≤ s.ops.length

/-- A state some run reaches from reset with some operation stream and some INIT_VARIANT (R143, StartsFromReset).
A run that continues an earlier one is a run of the longer stream, IP going on from where it was: DESIGN CHOICE, since R143
does not say whether IP restarts. Log entry 29. -/
inductive Reachable : State → Prop where
  | start (ops : List Request) (v : InitVariant) :
      Reachable { State.reset with ops := ops, initVariant := v }
  | step {s t : State} : Reachable s → Sys2Proof.Machine.step s = .next t → Reachable t

/-- A run of `n` steps from `s` is finished in `t` (R142): it contains no refusal and stands at the end of OPS. -/
def FinishedRun (n : Nat) (s t : State) : Prop :=
  Host.Core.run Sys2Proof.core n s = .next t ∧ t.ip = t.ops.length

end Sys2Proof.Safety
end

