-- ==== Sys2Proof/Certificates/Slice0/Obligations.lean ====
section
/-!
DEFINITION. The statements about the model, each from the rules of spec/ its docstring names. "Derived" in a docstring
marks a clause that rests on a decision of the spec (spec/92_eei_decisions.md) or on a choice of the model (a log entry).
-/

open Sys2Proof Sys2Proof.Machine Sys2Proof.Safety

/-! ### Reset -/

/-- The state after reset (R23, with the spec's decisions D1, D9, D17 for all but BUS). -/
def Obligations.ResetStateValues : Prop :=
  State.reset.bus = 0x00 ∧ State.reset.sr = .unknown ∧ State.reset.q = .unknown
    ∧ (∀ l : Line, State.reset.pins.get l = { dir := .notDriven, level := .unknown })
    ∧ State.reset.cfg.configured = false ∧ State.reset.cfg.div = none ∧ State.reset.done = false
    ∧ State.reset.ip = 0 ∧ State.reset.lcdReady = false ∧ State.reset.trace = []

/-! ### Encoding -/

/-- The decode vectors of spec/95_test_vectors.md section 2.5. -/
def Obligations.DecodeVectorsOfTheSpec : Prop :=
  decode (.req16 0x0000) = .ok .configure ∧ decode (.req16 0x10FF) = .ok (.transfer 0xFF)
    ∧ decode (.req16 0x2010) = .ok (.setSignal .rs true) ∧ decode (.req16 0x2001) = .ok (.setSignal .e false)
    ∧ decode (.req16 0x2015) = .ok (.setSignal .d7 true)
    ∧ decode (.req16 0x2006) = .ok (.setSignal .unnamed6 false)
    ∧ decode (.req16 0x2008) = .error .mustBeZeroSet ∧ decode (.req16 0x3000) = .ok .commit
    ∧ decode (.req16 0x3001) = .error .mustBeZeroSet ∧ decode (.req16 0x4003) = .ok (.writeNibble 0x3 false)
    ∧ decode (.req16 0x401A) = .ok (.writeNibble 0xA true) ∧ decode (.req16 0x5028) = .ok (.writeCommand 0x28)
    ∧ decode (.req16 0x6048) = .ok (.writeData 0x48) ∧ decode (.req16 0x7103) = .ok (.gotoPosition 3 1)
    ∧ decode (.req16 0x7040) = .ok (.gotoPosition 64 0) ∧ decode (.req16 0x7200) = .error .mustBeZeroSet
    ∧ decode (.req16 0x8000) = .ok .init ∧ decode (.req16 0x9000) = .error .reservedSelector
    ∧ decode (.req16 0xF123) = .error .reservedSelector

/-- Decoding the word of any well-formed operation gives it back, every operand at every value (R55, R57). -/
def Obligations.DecodeOfEncodeIsTheOperation : Prop :=
  ∀ i : Instr, i.wellFormed = true → decode (encode i) = .ok i

/-- A request word that decodes is the word of the operation it decodes to, which is well formed: no bit of a request
word is dropped (R57). -/
def Obligations.EncodeOfDecodedRequestIsTheWord : Prop :=
  ∀ (w : BitVec 16) (i : Instr), decode (.req16 w) = .ok i → i.wellFormed = true ∧ encode i = .req16 w

/-- A request word decodes exactly where it matches a row's mask and match; every other word is reserved (R57, R59). -/
def Obligations.RequestDecodesIffARowMatches : Prop :=
  ∀ w : BitVec 16, (∃ i, decode (.req16 w) = .ok i) ↔ ∃ row ∈ req16Rows, w &&& row.1 = row.2

/-- The LCD8 rows are operand values of WRITE_COMMAND, the NIB4 rows are lone WRITE_NIBBLEs in command mode: the
operation an LCD byte or a lone nibble decodes to does what that operation does (R55, R62). Log entry 3. -/
def Obligations.LcdWordsMeanWriteCommandAndNibble : Prop :=
  (∀ (b : Byte) (s : State), ∃ i, decode (.lcd8 b) = .ok i ∧ exec i s = exec (.writeCommand b) s)
    ∧ ∀ (n : Nibble) (s : State), ∃ i, decode (.nib4 n) = .ok i ∧ exec i s = exec (.writeNibble (n.setWidth 8) false) s

/-! ### The step -/

/-- Where the request at IP stands for operation `i` (a call of it, or a word that decodes to it), the step performs
`i`; when it completes IP is one further, when it is refused the run stops there (R17). -/
def Obligations.StepRunsTheDecodedOperation : Prop :=
  ∀ (s : State) (r : Request) (i : Instr), s.ops[s.ip]? = some r →
    (r = .call i ∨ ∃ w, r = .word w ∧ decode w = .ok i) →
    (∀ t, exec i s = .next t → step s = .next { t with ip := t.ip + 1 })
      ∧ ∀ reason, exec i s = .refused reason → step s = .refused reason

/-- At the end of the stream the step changes nothing: the idle loop (R132, R142). That the end is a step which stays
where it is, and what happens past the end, is the model's: log entry 5. -/
def Obligations.StepIdlesAtTheEndOfTheStream : Prop :=
  ∀ s : State, s.ops.length ≤ s.ip → step s = .next s

/-- A reserved request word is refused with ReservedRequest (R59, R124, decision D2). -/
def Obligations.StepRefusesAReservedWord : Prop :=
  ∀ (s : State) (w : TableWord) (reject : DecodeReject), s.ops[s.ip]? = some (.word w) →
    decode w = .error reject → step s = .refused .reservedRequest

/-- A word placed for the fetch is what the next step runs (R143; log entries 2 and 4). -/
def Obligations.PlacedWordIsRunByTheNextStep : Prop :=
  ∀ (s t : State) (nbits w : Nat) (i : Instr), decodeTableWord nbits w = some i →
    exec i (s.withFetchWord nbits w) = .next t → step (s.withFetchWord nbits w) = .next { t with ip := t.ip + 1 }

/-- No operation changes OPS (R43) or IP (R17), nor INIT_VARIANT, a parameter of the block (R5); so a step changes IP only
by one, and only where a request is. Derived: that INIT_VARIANT is a field of State is the model's choice, log entry 16;
that a step at or past the end of OPS answers a next state, with IP unchanged, is the model's choice, log entry 5. -/
def Obligations.StreamAndVariantNeverChange : Prop :=
  (∀ (i : Instr) (s t : State), exec i s = .next t →
      t.ops = s.ops ∧ t.initVariant = s.initVariant ∧ t.ip = s.ip)
    ∧ ∀ s t : State, step s = .next t →
      t.ops = s.ops ∧ t.initVariant = s.initVariant ∧ t.ip = if s.ip < s.ops.length then s.ip + 1 else s.ip

/-- "None of the operations can fail" (R120): an operation answers a next state, in every state, unless it has no meaning
there by one of the four conditions of R124 (decisions D10, D13, D14); and so does the step, unless the request at IP is
reserved (D2) or is such an operation. Derived: that an operation which transfers completes rests on the spec's decision D15,
that the hardware always reports completion (R74, R125), log entry 13, unsafe for a dead serial peripheral. At the end
of OPS, where there is no request, the step answers the same state: log entry 5. -/
def Obligations.EveryOperationCompletesUnlessRefused : Prop :=
  (∀ (i : Instr) (s : State), ¬HasNoMeaning i s → ∃ t, exec i s = .next t)
    ∧ ∀ s : State, (∀ r, s.ops[s.ip]? = some r → ∃ i, requestInstr r = .ok i ∧ ¬HasNoMeaning i s) → ∃ t, step s = .next t

/-- The refusals are exactly those of R124, each under its condition and in the order of R123; for the LCD command rows
and the lone nibbles, NotConfigured is that of the operation they stand for (log entry 20). -/
def Obligations.RefusalsAreExactlyTheListed : Prop :=
  ∀ (i : Instr) (s : State) (r : Refusal), exec i s = .refused r ↔
    (r = .notConfigured ∧ s.cfg.configured = false ∧ needsConfigured i = true)
      ∨ (r = .reservedSignal ∧ ∃ v, i = .setSignal .unnamed6 v ∨ i = .setSignal .unnamed7 v)
      ∨ (r = .rowOutOfRange ∧ s.cfg.configured = true ∧ ∃ column row, i = .gotoPosition column row ∧ 1 < row)
      ∨ (r = .columnOutOfRange ∧ s.cfg.configured = true
          ∧ ∃ column row, i = .gotoPosition column row ∧ row ≤ 1 ∧ 63 < column.toNat)

/-! ### The Serial Transport -/

/-- CONFIGURE always completes: lines driven and at idle, divider chosen, `Cfg` appended, nothing else changed (R70).
SDO's level is left as it was: log entry 10. -/
def Obligations.ConfigureResult : Prop :=
  ∀ s : State, exec .configure s = .next
    { s with
      pins :=
        { sck := { dir := .output, level := .low }
          sdo := { dir := .output, level := s.pins.sdo.level }
          latch := { dir := .output, level := .low } }
      cfg := { configured := true, div := some Config.sckDiv }
      trace := s.trace ++ [.cfg] }

/-- A second CONFIGURE "changes nothing but the trace" (R70 corner case (b), decision D25). -/
def Obligations.ConfigureIsIdempotent : Prop :=
  ∀ s t : State, exec .configure s = .next t → exec .configure t = .next { t with trace := t.trace ++ [.cfg] }

/-- TRANSFER completes on a configured block: SR holds the byte, DONE is set, SCK rests at 0, eight bits and
`Shift(b)` are appended; BUS, Q, LATCH and all else are unchanged (R71, R72). SDO's level afterwards and SCK's rest before
the first bit are the model's: log entries 10, 11 and 12. -/
def Obligations.TransferResult : Prop :=
  ∀ (s : State) (b : Byte), s.cfg.configured = true → exec (.transfer b) s = .next
    { s with
      sr := .ofByte b
      pins :=
        { sck := { dir := s.pins.sck.dir, level := .low }
          sdo := { dir := s.pins.sdo.dir, level := .unknown }
          latch := s.pins.latch }
      done := true
      trace := s.trace ++ bitEvents b ++ [.shift b] }

/-- A transfer drives the byte out bit 7 first, bit 0 at the eighth clock, whatever the state: the order cannot be
switched (R32). -/
def Obligations.TransferSendsMostSignificantBitFirst : Prop :=
  ∀ (s : State) (b : Byte), s.cfg.configured = true →
    ∃ t, exec (.transfer b) s = .next t
      ∧ bits t.trace = bits s.trace ++
          [b.getLsbD 7, b.getLsbD 6, b.getLsbD 5, b.getLsbD 4, b.getLsbD 3, b.getLsbD 2, b.getLsbD 1, b.getLsbD 0]

/-- After a transfer the old content of SR is lost and nothing observes it: two states that differ in SR only become one
(R44). -/
def Obligations.OldStagingBitsAreLost : Prop :=
  ∀ (s : State) (c : Stage) (b : Byte), s.cfg.configured = true →
    exec (.transfer b) { s with sr := c } = exec (.transfer b) s

/-- The byte-level and the bit-level description of TRANSFER agree on what a caller or the outputs observe: SR, Q, and the
trace without its Bit events (R71, R72). -/
def Obligations.BitLevelTransferRefinesByteLevel : Prop :=
  ∀ (s : State) (b : Byte), s.cfg.configured = true →
    ∃ t, exec (.transfer b) s = .next t ∧ t.sr = .ofByte b ∧ t.q = s.q
      ∧ byteTrace t.trace = byteTrace s.trace ++ [.shift b]

/-! ### The bus abstraction -/

/-- SET_SIGNAL (R80): the bit of BUS that MAP (R11) gives the name takes the value, the other bits keep theirs, and nothing
else changes. Derived: that it does so in every state, before CONFIGURE too, is the spec's decision D10. -/
def Obligations.SetSignalWritesTheMappedBit : Prop :=
  ∀ (s : State) (v : Bool), ∀ m ∈ [(Signal.rs, 0), (.e, 1), (.d4, 2), (.d5, 3), (.d6, 4), (.d7, 5)],
    ∃ t, exec (.setSignal m.1 v) s = .next t ∧ t = { s with bus := t.bus }
      ∧ ∀ k < 8, t.bus.getLsbD k = if k = m.2 then v else s.bus.getLsbD k

/-- A bit position MAP does not name is refused in every state (R59, R80, decision D14). -/
def Obligations.UnnamedSignalIsRefused : Prop :=
  ∀ (s : State) (v : Bool), exec (.setSignal .unnamed6 v) s = .refused .reservedSignal
    ∧ exec (.setSignal .unnamed7 v) s = .refused .reservedSignal

/-- COMMIT completes on a configured block: BUS, SR and Q hold the masked image, DONE is set, the lines are at idle, the
trace has one commit of it; nothing else changes but what the sink's draw leaves (R82). Log entries 10, 11, 12 and 22. -/
def Obligations.CommitResult : Prop :=
  ∀ s : State, s.cfg.configured = true → exec .commit s = .next
    (committed s (s.bus &&& 0x3F) (s.bus &&& 0x3F)
      (latchFall s ++ commitEvents (s.bus &&& 0x3F) (firstSink s (s.bus &&& 0x3F))))

/-- Format BUS8 (R51): the byte committed is `RS<<0 | E<<1 | (nibble & 0xF)<<2`, bits 7:6 zero whatever BUS held there,
in the range 0x00 to 0x3F, one value per (RS, E, nibble); BUS and Q have the same layout. -/
def Obligations.CommittedByteIsBus8 : Prop :=
  (∀ (s : State) (rs e : Bool) (n : Nibble), s.cfg.configured = true →
    s.bus.getLsbD 0 = rs → s.bus.getLsbD 1 = e → s.bus.extractLsb' 2 4 = n →
    ∃ t v, exec .commit s = .next t ∧ shifts t.trace = shifts s.trace ++ [v] ∧ t.q = .ofByte v ∧ t.bus = v
      ∧ v = (BitVec.ofBool rs).setWidth 8 <<< 0 ||| (BitVec.ofBool e).setWidth 8 <<< 1 ||| n.setWidth 8 <<< 2
      ∧ v.toNat < 64 ∧ v.getLsbD 0 = rs ∧ v.getLsbD 1 = e ∧ (∀ k < 4, v.getLsbD (2 + k) = n.getLsbD k))
    ∧ ∀ (rs e rs' e' : Bool) (n n' : Nibble), bus8 rs e n = bus8 rs' e' n' → rs = rs' ∧ e = e' ∧ n = n'

/-- Each COMMIT appends one LatchUp and one LatchDown, in that order, and before them one Shift, of `BUS & 0x3F` as
BUS is when the COMMIT begins (R84). LATCH is at idle in every state a run reaches (Inv, `lines_idle`). -/
def Obligations.CommitMakesOneLatchPulse : Prop :=
  ∀ s : State, s.cfg.configured = true → s.pins.latch.level = .low →
    ∃ t before between pulse,
      exec .commit s = .next t
        ∧ t.trace = s.trace ++ before ++ [.shift (s.bus &&& 0x3F)] ++ between ++ [.latchUp] ++ pulse ++ [.latchDown]
        ∧ ∀ e ∈ before ++ between ++ pulse, e ≠ .latchUp ∧ e ≠ .latchDown ∧ ∀ v, e ≠ .shift v

/-- Any number of SET_SIGNALs before a COMMIT reach the outputs as one transition: one Out event, of the image in which
each bit has the last value set, or the one it had (R83). -/
def Obligations.SetSignalsBatchIntoOneTransition : Prop :=
  ∀ (xs : List (Signal × Bool)) (s : State), s.cfg.configured = true →
    (∀ x ∈ xs, x.1 ≠ .unnamed6 ∧ x.1 ≠ .unnamed7) →
    ∃ t v, callAll (setSignals xs ++ [.commit]) s = .next t ∧ outs t.trace = outs s.trace ++ [.ofByte v]
      ∧ t.q = .ofByte v
      ∧ ∀ k < 8, v.getLsbD k =
          if k < 6 then
            ((xs.reverse.find? fun x => signalIndex x.1 == some k).map Prod.snd).getD (s.bus.getLsbD k)
          else false

/-- The LCD sink, at a COMMIT of `v` from a configured block (R94, decision D16), by cases that exclude each other: enable
falls with RS and data unchanged (the nibble, once); enable falls while they change (some nibble, and hazard R153
recorded); enable low after an unknown Q (no event or one nibble); any other case (no event). The captured values of the
second and third are free: log entry 6. -/
def Obligations.SinkCapturesByTheFourCases : Prop :=
  ∀ (s : State) (v : Byte), s.cfg.configured = true → s.bus &&& 0x3F = v →
    ∃ t, exec .commit s = .next t
      ∧ (∀ o, s.q = .ofByte o → o.getLsbD 1 = true → v.getLsbD 1 = false →
          o.getLsbD 0 = v.getLsbD 0 → o.extractLsb' 2 4 = v.extractLsb' 2 4 →
          nibbles t.trace = nibbles s.trace ++ [(o.getLsbD 0, o.extractLsb' 2 4)] ∧ t.hazardR153 = s.hazardR153)
      ∧ (∀ o, s.q = .ofByte o → o.getLsbD 1 = true → v.getLsbD 1 = false →
          ¬(o.getLsbD 0 = v.getLsbD 0 ∧ o.extractLsb' 2 4 = v.extractLsb' 2 4) →
          (∃ rs n, nibbles t.trace = nibbles s.trace ++ [(rs, n)]) ∧ t.hazardR153 = true)
      ∧ (s.q = .unknown → v.getLsbD 1 = false →
          (nibbles t.trace = nibbles s.trace ∨ ∃ rs n, nibbles t.trace = nibbles s.trace ++ [(rs, n)])
            ∧ t.hazardR153 = s.hazardR153)
      ∧ ((∃ o, s.q = .ofByte o ∧ (o.getLsbD 1 = false ∨ v.getLsbD 1 = true)) ∨ (s.q = .unknown ∧ v.getLsbD 1 = true) →
          nibbles t.trace = nibbles s.trace ∧ t.hazardR153 = s.hazardR153)

/-! ### The nibble serializer -/

/-- WRITE_NIBBLE completes on a configured block: commits (a), (b), (c) with enable low, high, low, their waits, the
nibble captured; BUS = SR = Q = the idle image; nothing else changes (R90). Log entries 10, 11, 12 and 22. -/
def Obligations.WriteNibbleResult : Prop :=
  ∀ (s : State) (value : Byte) (rs : Bool), s.cfg.configured = true →
    exec (.writeNibble value rs) s = .next (afterNibble (value.extractLsb' 0 4) rs s)

/-- Format NIB4 (R52): only `value & 0xF` is used, and nibble bit `k` is on data line D(4+k), BUS[2+k]. -/
def Obligations.NibbleIsMaskedAndPlaced : Prop :=
  ∀ (s : State) (value : Byte) (rs : Bool), s.cfg.configured = true →
    exec (.writeNibble value rs) s = exec (.writeNibble (value &&& 0x0F) rs) s
      ∧ ∃ t, exec (.writeNibble value rs) s = .next t ∧ ∀ k < 4, t.bus.getLsbD (2 + k) = value.getLsbD k

/-- WRITE_COMMAND completes on a configured block: both nibbles with RS = 0, T_LONG after 0x01 and 0x02 (R91). Log
entries 10, 11, 12 and 22. -/
def Obligations.WriteCommandResult : Prop :=
  ∀ (s : State) (b : Byte), s.cfg.configured = true → exec (.writeCommand b) s = .next (afterCommand b s)

/-- WRITE_DATA completes on a configured block: both nibbles with RS = 1, no further wait (R92). Log entries 10, 11, 12
and 22. -/
def Obligations.WriteDataResult : Prop :=
  ∀ (s : State) (b : Byte), s.cfg.configured = true → exec (.writeData b) s = .next (afterByte b true s)

/-- Format LCD8 (R53): a byte is published as two nibble writes, upper first, both with RS = 0 for a command and RS = 1
for data. -/
def Obligations.LcdByteIsSentUpperNibbleFirst : Prop :=
  ∀ (s : State) (b : Byte), s.cfg.configured = true → ∀ m ∈ [(Instr.writeCommand b, false), (.writeData b, true)],
    ∃ t, exec m.1 s = .next t
      ∧ outs t.trace = outs s.trace ++
          [.ofByte (bus8 m.2 false (b.extractLsb' 4 4)), .ofByte (bus8 m.2 true (b.extractLsb' 4 4)),
            .ofByte (bus8 m.2 false (b.extractLsb' 4 4)), .ofByte (bus8 m.2 false (b.extractLsb' 0 4)),
            .ofByte (bus8 m.2 true (b.extractLsb' 0 4)), .ofByte (bus8 m.2 false (b.extractLsb' 0 4))]

/-- The waits of a command and of a data byte (R56): T_LONG follows the second nibble's T_EXEC where the whole command
byte is 0x01 or 0x02, and nowhere else; a data byte is always short. -/
def Obligations.LongWaitExactlyAfterClearAndHome : Prop :=
  ∀ (s : State) (b : Byte), s.cfg.configured = true →
    ∃ t u, exec (.writeCommand b) s = .next t ∧ exec (.writeData b) s = .next u
      ∧ waits u.trace = waits s.trace ++
          [.latch, .addressSetup, .latch, .latch, .exec, .latch, .addressSetup, .latch, .latch, .exec]
      ∧ waits t.trace = waits u.trace ++ if b = 0x01 ∨ b = 0x02 then [.long] else []

/-- GOTO_POSITION completes on a configured block for rows 0 and 1 and columns 0 to 63: it sends the command byte
`ROW_BASE[row] + column` (R93). Log entries 10, 11, 12 and 22. -/
def Obligations.GotoPositionResult : Prop :=
  ∀ (s : State) (column : Byte), s.cfg.configured = true → column.toNat ≤ 63 →
    exec (.gotoPosition column 0) s = .next (afterCommand (0x80 + column) s)
      ∧ exec (.gotoPosition column 1) s = .next (afterCommand (0xC0 + column) s)

/-- Format DDR8 (R54): the command byte is bit 7 set, the row, the column in bits 5:0, a layout R54 derives from
`ROW_BASE[row] + column`. Derived: that columns of 64 and above, which are outside the layout, are refused is the spec's
decision D13 (R59, R93). -/
def Obligations.GotoSendsTheDdramAddress : Prop :=
  ∀ (s : State) (column : Byte) (row : Nat), s.cfg.configured = true → row ≤ 1 →
    (column.toNat ≤ 63 → exec (.gotoPosition column row) s =
        exec (.writeCommand (1#1 ++ (BitVec.ofNat 1 row ++ column.extractLsb' 0 6))) s
        ∧ 1#1 ++ (BitVec.ofNat 1 row ++ column.extractLsb' 0 6) = (if row = 0 then 0x80 else 0xC0) + column)
      ∧ (63 < column.toNat → exec (.gotoPosition column row) s = .refused .columnOutOfRange)

/-! ### INIT, and the other rows -/

/-- INIT completes from every state, in both variants: CONFIGURE, BUS cleared, T_POWER, the pings, the switch, the
commands of the variant, LCD_READY; nothing else changes (R110, R111). Log entries 10, 11, 12 and 18. -/
def Obligations.InitResult : Prop :=
  ∀ s : State, exec .init s = .next (afterInit s)

/-- The nibbles of INIT, after at most one that the unknown outputs may have caused (R110, R111, R94 case 3): three pings,
the switch, and then pairs that make the bytes of the variant's command list (R95), all in command mode. -/
def Obligations.InitSendsTheHandshakeThenTheCommands : Prop :=
  ∀ s : State, ∃ t drawn pairs,
    exec .init s = .next t ∧ drawn.length ≤ 1
      ∧ nibbles t.trace = nibbles s.trace ++ drawn ++ [(false, 0x3), (false, 0x3), (false, 0x3), (false, 0x2)] ++ pairs
      ∧ lcdBytes pairs = some (match s.initVariant with
          | .A => [(false, 0x28), (false, 0x08), (false, 0x01), (false, 0x06), (false, 0x0C)]
          | .B => [(false, 0x28), (false, 0x0C), (false, 0x06), (false, 0x01)])

/-- The counts of R112: 42 commits in variant A and 36 in B, and the sum of the lower bounds of all waits but T_LATCH. -/
def Obligations.InitCountsAndBounds : Prop :=
  ∀ s : State, ∃ t qs ws,
    exec .init s = .next t ∧ outs t.trace = outs s.trace ++ qs ∧ waits t.trace = waits s.trace ++ ws
      ∧ qs.length = (match s.initVariant with | .A => 42 | .B => 36)
      ∧ qs.getLast? = some (.ofByte (match s.initVariant with | .A => 0x30 | .B => 0x04))
      ∧ boundTime (ws.filter (· ≠ .latch)) =
          Config.waitBound .power + Config.waitBound .ping1 + Config.waitBound .ping2 + Config.waitBound .ping3
            + (match s.initVariant with | .A => 14 | .B => 12)
                * (Config.waitBound .addressSetup + Config.waitBound .exec)
            + Config.waitBound .long

/-- The LCD command rows complete on a configured block, each as WRITE_COMMAND of its byte (R55, R91); the rows with an
offset send `10oooooo` and `11oooooo`. Log entries 3, 10, 11, 12 and 22. -/
def Obligations.LcdCommandRowsResult : Prop :=
  ∀ (s : State) (o : BitVec 6), s.cfg.configured = true →
    exec .lcdClearDisplay s = .next (afterCommand 0x01 s)
      ∧ exec .lcdReturnHome s = .next (afterCommand 0x02 s)
      ∧ exec .lcdEntryModeInc s = .next (afterCommand 0x06 s)
      ∧ exec .lcdDisplayOff s = .next (afterCommand 0x08 s)
      ∧ exec .lcdDisplayOn s = .next (afterCommand 0x0C s)
      ∧ exec .lcdFunctionSet4Bit s = .next (afterCommand 0x28 s)
      ∧ exec (.lcdSetDdramRow0 o) s = .next (afterCommand (0b10#2 ++ o) s)
      ∧ exec (.lcdSetDdramRow1 o) s = .next (afterCommand (0b11#2 ++ o) s)

/-- PING8 and SWITCH4 complete on a configured block: the lone nibbles 0x3 and 0x2 in command mode (R62). 0x3 is from
outside DOC0 (G1): log entry 18; also log entries 10, 11, 12 and 22. -/
def Obligations.LoneNibbleRowsResult : Prop :=
  ∀ s : State, s.cfg.configured = true →
    exec .ping8 s = .next (afterNibble 0x3 false s) ∧ exec .switch4 s = .next (afterNibble 0x2 false s)

/-! ### What programs can rely on -/

/-- The trace is "only ever appended to" (R19), by every operation and every step. -/
def Obligations.TraceIsOnlyAppendedTo : Prop :=
  (∀ (i : Instr) (s t : State), exec i s = .next t → ∃ ev, t.trace = s.trace ++ ev)
    ∧ ∀ s t : State, step s = .next t → ∃ ev, t.trace = s.trace ++ ev

/-- Q takes exactly the bytes published, in order, each a BUS8 byte, and changes at no other time (R36, R40 item 2, R85). -/
def Obligations.OutputsFollowTheCommittedBytes : Prop :=
  ∀ (i : Instr) (s t : State), exec i s = .next t →
    ∃ qs, outs t.trace = outs s.trace ++ qs ∧ (∀ c ∈ qs, IsBus8 c) ∧ t.q = qs.getLast?.getD s.q

/-- Every operation that writes nibbles touches the outputs only in whole enable pulses: enable low, high, low, with
register-select and data unchanged (R96). -/
def Obligations.NibbleWritersMakeWholeEnablePulses : Prop :=
  ∀ (i : Instr) (s t : State), writesNibbles i = true → exec i s = .next t →
    ∃ qs, qs ≠ [] ∧ outs t.trace = outs s.trace ++ qs ∧ EnablePulses qs

/-- After an operation that writes nibbles enable is low in BUS and on Q, and Q = SR = BUS (R24 items 3 and 4), whatever
the state before. -/
def Obligations.NibbleWritersLeaveTheImageOnTheOutputs : Prop :=
  ∀ (i : Instr) (s t : State), writesNibbles i = true → exec i s = .next t →
    t.bus.getLsbD 1 = false ∧ t.q = .ofByte t.bus ∧ t.sr = .ofByte t.bus ∧ t.done = true

/-- The outputs hold BUS until the next SET_SIGNAL: every other operation keeps Q = BUS (R24 item 4, R156). SR is left out
because a bare TRANSFER writes it (R71): log entry 27. -/
def Obligations.OnlySetSignalPartsBusFromOutputs : Prop :=
  ∀ (i : Instr) (s t : State), (∀ name v, i ≠ .setSignal name v) → exec i s = .next t →
    s.q = .ofByte s.bus → t.q = .ofByte t.bus

/-- Where Q is known with enable low, no operation takes a draw or violates hazard R153, and every operation but a COMMIT
leaves it so; a COMMIT leaves it so where BUS has enable low (R94 case 2, R96). -/
def Obligations.NoDrawWhileOutputsHaveEnableLow : Prop :=
  ∀ (i : Instr) (s t : State), OutputsEnableLow s → exec i s = .next t →
    t.draws = s.draws ∧ t.hazardR153 = s.hazardR153
      ∧ ((i = .commit → s.bus.getLsbD 1 = false) → OutputsEnableLow t)

/-- LCD_READY is set by INIT and by nothing else, and never cleared (R18). -/
def Obligations.OnlyInitSetsLcdReady : Prop :=
  ∀ (i : Instr) (s t : State), exec i s = .next t → (t.lcdReady = true ↔ s.lcdReady = true ∨ i = .init)

/-- CONFIGURE and INIT configure the block, and nothing unconfigures it (R15). -/
def Obligations.OnlyConfigureAndInitConfigure : Prop :=
  ∀ (i : Instr) (s t : State), exec i s = .next t →
    (t.cfg.configured = true ↔ s.cfg.configured = true ∨ i = .configure ∨ i = .init)
      ∧ (i ≠ .configure → i ≠ .init → t.cfg = s.cfg)

/-- WRITE_STRING of any characters (R114), with enable low on the outputs: the nibbles the sink sees meanwhile pair up into
exactly those characters, in data mode and in order (R95). It speaks of the sink's nibbles only: what they mean to the LCD
takes LCD_READY = 1 (R113), for which see InitThenStringIsWhatTheSinkSees. -/
def Obligations.WriteStringDeliversTheCharacters : Prop :=
  ∀ (chars : List Byte) (s : State), s.cfg.configured = true → OutputsEnableLow s →
    ∃ t pairs, callAll (writeString chars) s = .next t ∧ nibbles t.trace = nibbles s.trace ++ pairs
      ∧ lcdBytes pairs = some (chars.map fun c => (true, c))

/-- No wait is shorter than its bound, whatever values the implementation gives the waits (R160, R161). Derived: the bounds
15 ms for T_POWER and 1 µs for T_AS and T_LATCH are the spec's decision D6; the form of a wait, its bound and an opaque
extra, is the model's, log entry 15. -/
def Obligations.WaitsAreNeverBelowTheirBounds : Prop :=
  (∀ ws : List Wait, boundTime ws ≤ waitTime ws)
    ∧ [Wait.power, .ping1, .ping2, .ping3, .addressSetup, .exec, .long, .latch].map Config.waitBound =
        [15000000, 4100000, 100000, 100000, 1000, 40000, 2000000, 1000]

/-! ### What the sink sees from INIT on -/

/-- After INIT, from every state, the nibbles after its fourth pair up into the command bytes of the variant (R95, R111),
and LCD_READY is 1. Log entry 28 says which INIT, where there are several. -/
def Obligations.InitBytesSeenAreItsCommands : Prop :=
  ∀ s : State, ∃ t, exec .init s = .next t ∧ lcdBytesSeen t.trace = some (initBytesSeen s.initVariant)
    ∧ t.lcdReady = true

/-- Where the bytes seen since INIT are `bs`, and Q has enable low: a command or a GOTO_POSITION adds its byte in command
mode, a data byte adds it in data mode, a lone nibble write leaves the stream out of step, and an operation that writes no
nibble changes nothing of it (R95, R152). Log entry 28. -/
def Obligations.BytesSeenFollowTheOperations : Prop :=
  ∀ (s : State) (bs : List (Bool × Byte)), s.cfg.configured = true → OutputsEnableLow s →
    lcdBytesSeen s.trace = some bs →
    (∀ b, ∃ t, exec (.writeCommand b) s = .next t ∧ lcdBytesSeen t.trace = some (bs ++ [(false, b)]))
      ∧ (∀ b, ∃ t, exec (.writeData b) s = .next t ∧ lcdBytesSeen t.trace = some (bs ++ [(true, b)]))
      ∧ (∀ (column : Byte) (row : Nat), column.toNat ≤ 63 → row ≤ 1 → ∃ t, exec (.gotoPosition column row) s = .next t
          ∧ lcdBytesSeen t.trace = some (bs ++ [(false, (if row = 0 then 0x80 else 0xC0) + column)]))
      ∧ (∀ value rs, ∃ t, exec (.writeNibble value rs) s = .next t ∧ lcdBytesSeen t.trace = none)
      ∧ ∀ i t, writesNibbles i = false → exec i s = .next t → lcdBytesSeen t.trace = some bs

/-- INIT and then WRITE_STRING (R114, R115), from every state: the LcdBytes of R95 are the variant's commands and then
exactly the characters, and LCD_READY is 1 (R113). Log entry 28. -/
def Obligations.InitThenStringIsWhatTheSinkSees : Prop :=
  ∀ (s : State) (chars : List Byte), ∃ t, callAll (.init :: writeString chars) s = .next t ∧ t.lcdReady = true
    ∧ lcdBytesSeen t.trace = some (initBytesSeen s.initVariant ++ chars.map fun c => (true, c))

/-! ### Invariants -/

/-- The invariants hold at reset, with any operation stream and either variant loaded (R23, R24). -/
def Obligations.InvariantHoldsAtReset : Prop :=
  Inv State.reset ∧ ∀ (ops : List Request) (v : InitVariant), Inv { State.reset with ops := ops, initVariant := v }

/-- Every step keeps the invariants (R24, with R13, R20, R23, R40 item 2, R85 and R157), from every state that meets them. -/
def Obligations.StepKeepsTheInvariant : Prop :=
  ∀ s t : State, Inv s → step s = .next t → Inv t

/-- Every state a run reaches, from reset with any operation stream and either variant, meets the invariants; so the spare
outputs Q[7:6] are never high (R24, R157). A run that continues an earlier one is one of the longer stream: log entry 29. -/
def Obligations.ReachableStatesMeetTheInvariant : Prop :=
  ∀ s : State, Reachable s → Inv s ∧ s.q.b7 ≠ .high ∧ s.q.b6 ≠ .high
end

