-- ==== Sys2Proof/Laws/Decode.lean ====
section
/-!
SUPPORT. What the decoder's parts say, bit by bit: a proof about all request words goes through these, not through
their number.
-/

namespace Sys2Proof

/-- A row decodes to its operation exactly where its must-be-zero bits are zero. -/
theorem unlessSet_ok {w mbz : BitVec 16} {i j : Instr} : unlessSet w mbz i = .ok j ↔ w &&& mbz = 0 ∧ i = j := by
  unfold unlessSet; split <;> simp_all

/-- The selector's value fixes the top four bits of the word. -/
theorem selector_bit {w : BitVec 16} {k : Nat} (h : (w.extractLsb' 12 4).toNat = k) {j : Nat} (hj : j < 4) :
    w.getLsbD (12 + j) = k.testBit j := by
  rw [← h, BitVec.testBit_toNat, BitVec.getLsbD_extractLsb']; simp [hj]

/-- A must-be-zero bit of a word that passes the check is zero. -/
theorem mustBeZero_bit {w mbz : BitVec 16} (h : w &&& mbz = 0) {j : Nat} (hm : mbz.getLsbD j = true) :
    w.getLsbD j = false := by
  have := congrArg (·.getLsbD j) h
  simpa [hm] using this

/-- The field of a signal names that signal. -/
@[simp] theorem signalOf_signalField (s : Signal) : signalOf (signalField s) = s := by cases s <;> rfl

/-- Every field value is the field of the signal it names. -/
@[simp] theorem signalField_signalOf (f : BitVec 3) : signalField (signalOf f) = f := by revert f; decide

/-- An LCD byte with top bits 10 is 0x80 plus its offset (R54, R55). -/
theorem ddramRow0_byte (b : Byte) (h : b.extractLsb' 6 2 = 2) : 0x80 + (b.extractLsb' 0 6).setWidth 8 = b := by
  revert b; decide +kernel

/-- An LCD byte with top bits 11 is 0xC0 plus its offset (R54, R55). -/
theorem ddramRow1_byte (b : Byte) (h : b.extractLsb' 6 2 = 3) : 0xC0 + (b.extractLsb' 0 6).setWidth 8 = b := by
  revert b; decide +kernel

end Sys2Proof
end

