-- ==== Sys2Proof/Laws/Operands.lean ====
section
/-!
SUPPORT. What operand assembly computes: the cells of a stage, the bits of BUS, and the images a nibble write commits.
-/

namespace Sys2Proof.Machine

open Sys2Proof.Safety

@[simp] theorem level_bit_ofBit (b : Bool) : (Level.ofBit b).bit? = some b := by cases b <;> rfl

theorem level_ofBit_inj {a b : Bool} (h : Level.ofBit a = Level.ofBit b) : a = b := by
  cases a <;> cases b <;> first | rfl | cases h

theorem byte_of_bits (v : Byte) :
    BitVec.ofNat 8 ([v.getLsbD 7, v.getLsbD 6, v.getLsbD 5, v.getLsbD 4, v.getLsbD 3, v.getLsbD 2,
      v.getLsbD 1, v.getLsbD 0].foldl (fun n b => 2 * n + b.toNat) 0) = v := by
  revert v; decide +kernel

/-- A stage that holds a byte is known and holds that byte. -/
@[simp] theorem stage_byte_ofByte (v : Byte) : (Stage.ofByte v).byte? = some v := by
  simp only [Stage.byte?, Stage.bits?, Stage.ofByte, List.mapM_cons, List.mapM_nil, level_bit_ofBit,
    Option.bind_eq_bind, Option.bind_some, Option.pure_def, Option.map_some, byte_of_bits]

@[simp] theorem stage_byte_unknown : Stage.unknown.byte? = none := rfl

theorem stage_ofByte_inj {v w : Byte} (h : Stage.ofByte v = Stage.ofByte w) : v = w := by
  have := congrArg Stage.byte? h
  simpa using this

/-- Eight shifts leave the byte they carry, whatever the stage held (R44, R73). -/
theorem stage_shiftIn_eight (c : Stage) (v : Byte) :
    ((((((((c.shiftIn (.ofBit (v.getLsbD 7))).shiftIn (.ofBit (v.getLsbD 6))).shiftIn (.ofBit (v.getLsbD 5))).shiftIn
      (.ofBit (v.getLsbD 4))).shiftIn (.ofBit (v.getLsbD 3))).shiftIn (.ofBit (v.getLsbD 2))).shiftIn
      (.ofBit (v.getLsbD 1))).shiftIn (.ofBit (v.getLsbD 0))) = .ofByte v := rfl

/-- The image commit (a) of a nibble write shifts, whatever BUS held (R51, R90). -/
theorem nibble_image (bus : Byte) (rs : Bool) (n : Nibble) :
    maskBus (writeBit (writeDataLines (writeDataLines (writeBit bus 0 rs) 0) n) 1 false) = bus8 rs false n := by
  apply BitVec.eq_of_getLsbD_eq
  intro i hi
  interval_cases i <;> cases rs <;> simp [maskBus, writeBit, writeDataLines, bus8]

@[simp] theorem mask_bus8 (rs e : Bool) (n : Nibble) : maskBus (bus8 rs e n) = bus8 rs e n := by
  revert rs e n; decide

@[simp] theorem raise_enable (rs e : Bool) (n : Nibble) : writeBit (bus8 rs e n) 1 true = bus8 rs true n := by
  revert rs e n; decide

@[simp] theorem lower_enable (rs e : Bool) (n : Nibble) : writeBit (bus8 rs e n) 1 false = bus8 rs false n := by
  revert rs e n; decide

theorem bus8_lt (rs e : Bool) (n : Nibble) : (bus8 rs e n).toNat < 64 := by
  revert rs e n; decide

/-- The sink sees nothing when a nibble write raises enable, or starts from its own idle image (R94 case 4). -/
theorem capture_enable_low (o : Byte) (h : o.getLsbD 1 = false) (n : Byte) :
    capture (.ofByte o) (.ofByte n) = .nothing := by
  have known : captureKnown o n = .nothing := by unfold captureKnown; rw [h]; rfl
  simp [capture, known]

@[simp] theorem bus8_enable (rs e : Bool) (n : Nibble) : (bus8 rs e n).getLsbD 1 = e := by
  revert rs e n; decide

/-- The sink captures the nibble as a nibble write lowers enable (R94 case 1). -/
@[simp] theorem capture_enable_falls (rs : Bool) (n : Nibble) :
    capture (.ofByte (bus8 rs true n)) (.ofByte (bus8 rs false n)) = .nibble rs n := by
  have : captureKnown (bus8 rs true n) (bus8 rs false n) = .nibble rs n := by
    revert rs n; decide
  simp [capture, this]

theorem lowNibble_upperValue (b : Byte) : lowNibble (upperValue b) = b.extractLsb' 4 4 := by
  revert b; decide +kernel

theorem lowNibble_lowerValue (b : Byte) : lowNibble (lowerValue b) = b.extractLsb' 0 4 := by
  revert b; decide +kernel

theorem isLongCommand_iff (b : Byte) : isLongCommand b = true ↔ b = 0x01 ∨ b = 0x02 := by
  simp [isLongCommand]

end Sys2Proof.Machine
end

