-- ==== Sys2Proof/Laws/State.lean ====
section
/-!
SUPPORT. What each update of State does to each field, true by `rfl`, so that no later proof unfolds a record update.
-/

namespace Sys2Proof.Machine

variable (s : State)

/-! ### setBus -/

@[simp] theorem setBus_bus (v : Byte) : (setBus v s).bus = v := rfl
@[simp] theorem setBus_sr (v : Byte) : (setBus v s).sr = s.sr := rfl
@[simp] theorem setBus_q (v : Byte) : (setBus v s).q = s.q := rfl
@[simp] theorem setBus_pins (v : Byte) : (setBus v s).pins = s.pins := rfl
@[simp] theorem setBus_cfg (v : Byte) : (setBus v s).cfg = s.cfg := rfl
@[simp] theorem setBus_done (v : Byte) : (setBus v s).done = s.done := rfl
@[simp] theorem setBus_ip (v : Byte) : (setBus v s).ip = s.ip := rfl
@[simp] theorem setBus_lcdReady (v : Byte) : (setBus v s).lcdReady = s.lcdReady := rfl
@[simp] theorem setBus_trace (v : Byte) : (setBus v s).trace = s.trace := rfl
@[simp] theorem setBus_hazardR153 (v : Byte) : (setBus v s).hazardR153 = s.hazardR153 := rfl
@[simp] theorem setBus_ops (v : Byte) : (setBus v s).ops = s.ops := rfl
@[simp] theorem setBus_initVariant (v : Byte) : (setBus v s).initVariant = s.initVariant := rfl
@[simp] theorem setBus_draws (v : Byte) : (setBus v s).draws = s.draws := rfl

/-! ### emit -/

@[simp] theorem emit_bus (e : Event) : (emit e s).bus = s.bus := rfl
@[simp] theorem emit_sr (e : Event) : (emit e s).sr = s.sr := rfl
@[simp] theorem emit_q (e : Event) : (emit e s).q = s.q := rfl
@[simp] theorem emit_pins (e : Event) : (emit e s).pins = s.pins := rfl
@[simp] theorem emit_cfg (e : Event) : (emit e s).cfg = s.cfg := rfl
@[simp] theorem emit_done (e : Event) : (emit e s).done = s.done := rfl
@[simp] theorem emit_ip (e : Event) : (emit e s).ip = s.ip := rfl
@[simp] theorem emit_lcdReady (e : Event) : (emit e s).lcdReady = s.lcdReady := rfl
@[simp] theorem emit_trace (e : Event) : (emit e s).trace = s.trace ++ [e] := rfl
@[simp] theorem emit_hazardR153 (e : Event) : (emit e s).hazardR153 = s.hazardR153 := rfl
@[simp] theorem emit_ops (e : Event) : (emit e s).ops = s.ops := rfl
@[simp] theorem emit_initVariant (e : Event) : (emit e s).initVariant = s.initVariant := rfl
@[simp] theorem emit_draws (e : Event) : (emit e s).draws = s.draws := rfl

/-! ### delay -/

@[simp] theorem delay_bus (t : Wait) : (delay t s).bus = s.bus := rfl
@[simp] theorem delay_sr (t : Wait) : (delay t s).sr = s.sr := rfl
@[simp] theorem delay_q (t : Wait) : (delay t s).q = s.q := rfl
@[simp] theorem delay_pins (t : Wait) : (delay t s).pins = s.pins := rfl
@[simp] theorem delay_cfg (t : Wait) : (delay t s).cfg = s.cfg := rfl
@[simp] theorem delay_done (t : Wait) : (delay t s).done = s.done := rfl
@[simp] theorem delay_ip (t : Wait) : (delay t s).ip = s.ip := rfl
@[simp] theorem delay_lcdReady (t : Wait) : (delay t s).lcdReady = s.lcdReady := rfl
@[simp] theorem delay_trace (t : Wait) : (delay t s).trace = s.trace ++ [.delay t] := rfl
@[simp] theorem delay_hazardR153 (t : Wait) : (delay t s).hazardR153 = s.hazardR153 := rfl
@[simp] theorem delay_ops (t : Wait) : (delay t s).ops = s.ops := rfl
@[simp] theorem delay_initVariant (t : Wait) : (delay t s).initVariant = s.initVariant := rfl
@[simp] theorem delay_draws (t : Wait) : (delay t s).draws = s.draws := rfl

/-! ### setDone -/

@[simp] theorem setDone_bus (v : Bool) : (setDone v s).bus = s.bus := rfl
@[simp] theorem setDone_sr (v : Bool) : (setDone v s).sr = s.sr := rfl
@[simp] theorem setDone_q (v : Bool) : (setDone v s).q = s.q := rfl
@[simp] theorem setDone_pins (v : Bool) : (setDone v s).pins = s.pins := rfl
@[simp] theorem setDone_cfg (v : Bool) : (setDone v s).cfg = s.cfg := rfl
@[simp] theorem setDone_done (v : Bool) : (setDone v s).done = v := rfl
@[simp] theorem setDone_ip (v : Bool) : (setDone v s).ip = s.ip := rfl
@[simp] theorem setDone_lcdReady (v : Bool) : (setDone v s).lcdReady = s.lcdReady := rfl
@[simp] theorem setDone_trace (v : Bool) : (setDone v s).trace = s.trace := rfl
@[simp] theorem setDone_hazardR153 (v : Bool) : (setDone v s).hazardR153 = s.hazardR153 := rfl
@[simp] theorem setDone_ops (v : Bool) : (setDone v s).ops = s.ops := rfl
@[simp] theorem setDone_initVariant (v : Bool) : (setDone v s).initVariant = s.initVariant := rfl
@[simp] theorem setDone_draws (v : Bool) : (setDone v s).draws = s.draws := rfl

/-! ### setLevel -/

@[simp] theorem setLevel_bus (l : Line) (v : Level) : (setLevel l v s).bus = s.bus := rfl
@[simp] theorem setLevel_sr (l : Line) (v : Level) : (setLevel l v s).sr = s.sr := rfl
@[simp] theorem setLevel_q (l : Line) (v : Level) : (setLevel l v s).q = s.q := rfl
@[simp] theorem setLevel_pins (l : Line) (v : Level) : (setLevel l v s).pins = s.pins.setLevel l v := rfl
@[simp] theorem setLevel_cfg (l : Line) (v : Level) : (setLevel l v s).cfg = s.cfg := rfl
@[simp] theorem setLevel_done (l : Line) (v : Level) : (setLevel l v s).done = s.done := rfl
@[simp] theorem setLevel_ip (l : Line) (v : Level) : (setLevel l v s).ip = s.ip := rfl
@[simp] theorem setLevel_lcdReady (l : Line) (v : Level) : (setLevel l v s).lcdReady = s.lcdReady := rfl
@[simp] theorem setLevel_trace (l : Line) (v : Level) : (setLevel l v s).trace = s.trace := rfl
@[simp] theorem setLevel_hazardR153 (l : Line) (v : Level) : (setLevel l v s).hazardR153 = s.hazardR153 := rfl
@[simp] theorem setLevel_ops (l : Line) (v : Level) : (setLevel l v s).ops = s.ops := rfl
@[simp] theorem setLevel_initVariant (l : Line) (v : Level) : (setLevel l v s).initVariant = s.initVariant := rfl
@[simp] theorem setLevel_draws (l : Line) (v : Level) : (setLevel l v s).draws = s.draws := rfl

/-! ### clockRise -/

@[simp] theorem clockRise_bus : (clockRise s).bus = s.bus := rfl
@[simp] theorem clockRise_sr : (clockRise s).sr = s.sr.shiftIn s.pins.sdo.level := rfl
@[simp] theorem clockRise_q : (clockRise s).q = s.q := rfl
@[simp] theorem clockRise_pins : (clockRise s).pins = s.pins := rfl
@[simp] theorem clockRise_cfg : (clockRise s).cfg = s.cfg := rfl
@[simp] theorem clockRise_done : (clockRise s).done = s.done := rfl
@[simp] theorem clockRise_ip : (clockRise s).ip = s.ip := rfl
@[simp] theorem clockRise_lcdReady : (clockRise s).lcdReady = s.lcdReady := rfl
@[simp] theorem clockRise_trace : (clockRise s).trace = s.trace := rfl
@[simp] theorem clockRise_hazardR153 : (clockRise s).hazardR153 = s.hazardR153 := rfl
@[simp] theorem clockRise_ops : (clockRise s).ops = s.ops := rfl
@[simp] theorem clockRise_initVariant : (clockRise s).initVariant = s.initVariant := rfl
@[simp] theorem clockRise_draws : (clockRise s).draws = s.draws := rfl

/-! ### sinkLooks -/

@[simp] theorem sinkLooks_bus (a b : Stage) : (sinkLooks a b s).bus = s.bus := rfl
@[simp] theorem sinkLooks_sr (a b : Stage) : (sinkLooks a b s).sr = s.sr := rfl
@[simp] theorem sinkLooks_q (a b : Stage) : (sinkLooks a b s).q = s.q := rfl
@[simp] theorem sinkLooks_pins (a b : Stage) : (sinkLooks a b s).pins = s.pins := rfl
@[simp] theorem sinkLooks_cfg (a b : Stage) : (sinkLooks a b s).cfg = s.cfg := rfl
@[simp] theorem sinkLooks_done (a b : Stage) : (sinkLooks a b s).done = s.done := rfl
@[simp] theorem sinkLooks_ip (a b : Stage) : (sinkLooks a b s).ip = s.ip := rfl
@[simp] theorem sinkLooks_lcdReady (a b : Stage) : (sinkLooks a b s).lcdReady = s.lcdReady := rfl
@[simp] theorem sinkLooks_trace (a b : Stage) : (sinkLooks a b s).trace = s.trace ++ captureEvents (capture a b) s.draws := rfl
@[simp] theorem sinkLooks_hazardR153 (a b : Stage) : (sinkLooks a b s).hazardR153 = (s.hazardR153 || capture a b == .changed) := rfl
@[simp] theorem sinkLooks_ops (a b : Stage) : (sinkLooks a b s).ops = s.ops := rfl
@[simp] theorem sinkLooks_initVariant (a b : Stage) : (sinkLooks a b s).initVariant = s.initVariant := rfl
@[simp] theorem sinkLooks_draws (a b : Stage) : (sinkLooks a b s).draws = s.draws + captureDraws (capture a b) := rfl

/-! ### latchRise -/

@[simp] theorem latchRise_bus : (latchRise s).bus = s.bus := rfl
@[simp] theorem latchRise_sr : (latchRise s).sr = s.sr := rfl
@[simp] theorem latchRise_q : (latchRise s).q = s.sr := rfl
@[simp] theorem latchRise_pins : (latchRise s).pins = s.pins := rfl
@[simp] theorem latchRise_cfg : (latchRise s).cfg = s.cfg := rfl
@[simp] theorem latchRise_done : (latchRise s).done = s.done := rfl
@[simp] theorem latchRise_ip : (latchRise s).ip = s.ip := rfl
@[simp] theorem latchRise_lcdReady : (latchRise s).lcdReady = s.lcdReady := rfl
@[simp] theorem latchRise_trace : (latchRise s).trace = s.trace ++ [.out s.sr] ++ captureEvents (capture s.q s.sr) s.draws := rfl
@[simp] theorem latchRise_hazardR153 : (latchRise s).hazardR153 = (s.hazardR153 || capture s.q s.sr == .changed) := rfl
@[simp] theorem latchRise_ops : (latchRise s).ops = s.ops := rfl
@[simp] theorem latchRise_initVariant : (latchRise s).initVariant = s.initVariant := rfl
@[simp] theorem latchRise_draws : (latchRise s).draws = s.draws + captureDraws (capture s.q s.sr) := rfl

/-! ### advanceIp -/

@[simp] theorem advanceIp_bus : (advanceIp s).bus = s.bus := rfl
@[simp] theorem advanceIp_sr : (advanceIp s).sr = s.sr := rfl
@[simp] theorem advanceIp_q : (advanceIp s).q = s.q := rfl
@[simp] theorem advanceIp_pins : (advanceIp s).pins = s.pins := rfl
@[simp] theorem advanceIp_cfg : (advanceIp s).cfg = s.cfg := rfl
@[simp] theorem advanceIp_done : (advanceIp s).done = s.done := rfl
@[simp] theorem advanceIp_ip : (advanceIp s).ip = s.ip + 1 := rfl
@[simp] theorem advanceIp_lcdReady : (advanceIp s).lcdReady = s.lcdReady := rfl
@[simp] theorem advanceIp_trace : (advanceIp s).trace = s.trace := rfl
@[simp] theorem advanceIp_hazardR153 : (advanceIp s).hazardR153 = s.hazardR153 := rfl
@[simp] theorem advanceIp_ops : (advanceIp s).ops = s.ops := rfl
@[simp] theorem advanceIp_initVariant : (advanceIp s).initVariant = s.initVariant := rfl
@[simp] theorem advanceIp_draws : (advanceIp s).draws = s.draws := rfl

/-! ### placeRequest -/

@[simp] theorem placeRequest_bus (r : Request) : (placeRequest r s).bus = s.bus := rfl
@[simp] theorem placeRequest_sr (r : Request) : (placeRequest r s).sr = s.sr := rfl
@[simp] theorem placeRequest_q (r : Request) : (placeRequest r s).q = s.q := rfl
@[simp] theorem placeRequest_pins (r : Request) : (placeRequest r s).pins = s.pins := rfl
@[simp] theorem placeRequest_cfg (r : Request) : (placeRequest r s).cfg = s.cfg := rfl
@[simp] theorem placeRequest_done (r : Request) : (placeRequest r s).done = s.done := rfl
@[simp] theorem placeRequest_ip (r : Request) : (placeRequest r s).ip = s.ip := rfl
@[simp] theorem placeRequest_lcdReady (r : Request) : (placeRequest r s).lcdReady = s.lcdReady := rfl
@[simp] theorem placeRequest_trace (r : Request) : (placeRequest r s).trace = s.trace := rfl
@[simp] theorem placeRequest_hazardR153 (r : Request) : (placeRequest r s).hazardR153 = s.hazardR153 := rfl
@[simp] theorem placeRequest_ops (r : Request) : (placeRequest r s).ops = (s.ops ++ List.replicate (s.ip + 1 - s.ops.length) r).set s.ip r := rfl
@[simp] theorem placeRequest_initVariant (r : Request) : (placeRequest r s).initVariant = s.initVariant := rfl
@[simp] theorem placeRequest_draws (r : Request) : (placeRequest r s).draws = s.draws := rfl

/-! ### PIN -/

@[simp] theorem pins_setLevel_sck (p : Pins) (v : Level) :
    p.setLevel .sck v = { p with sck := { p.sck with level := v } } := rfl
@[simp] theorem pins_setLevel_sdo (p : Pins) (v : Level) :
    p.setLevel .sdo v = { p with sdo := { p.sdo with level := v } } := rfl
@[simp] theorem pins_setLevel_latch (p : Pins) (v : Level) :
    p.setLevel .latch v = { p with latch := { p.latch with level := v } } := rfl
@[simp] theorem pins_get_sck (p : Pins) : p.get .sck = p.sck := rfl
@[simp] theorem pins_get_sdo (p : Pins) : p.get .sdo = p.sdo := rfl
@[simp] theorem pins_get_latch (p : Pins) : p.get .latch = p.latch := rfl

end Sys2Proof.Machine
end

