-- ==== Sys2Proof/Laws/Ops.lean ====
section
/-!
SUPPORT. One equation for each shared operation that says all it does: the state it leaves, field by field, from any
state. Later proofs cite these and do not unfold the operations.
-/

namespace Sys2Proof.Machine

open Sys2Proof.Safety

/-! ### Driving a line -/

/-- Driving SDO only sets its level. -/
theorem pin_sdo (v : Level) (s : State) : pin .sdo v s = setLevel .sdo v s := by
  unfold pin; split <;> simp_all

/-- Driving SCK low only sets its level (R73: "`SCK↓` does nothing"). -/
theorem pin_sck_low (s : State) : pin .sck .low s = setLevel .sck .low s := by
  unfold pin; split <;> simp_all

/-- Driving SCK from 0 to 1 shifts the level of SDO into SR (R73). -/
theorem pin_sck_rise (s : State) (h : s.pins.sck.level = .low) :
    pin .sck .high s = clockRise (setLevel .sck .high s) := by
  unfold pin; split <;> simp_all

/-- Driving LATCH from 0 to 1 publishes SR (R81). -/
theorem pin_latch_rise (s : State) (h : s.pins.latch.level = .low) :
    pin .latch .high s = latchRise (emit .latchUp (setLevel .latch .high s)) := by
  unfold pin; split <;> simp_all

/-- Driving LATCH low emits LatchDown where it was at 1 and nothing else (R81: "`LATCH↓` does nothing"). -/
theorem pin_latch_low (s : State) :
    pin .latch .low s =
      { s with
        pins := { s.pins with latch := { s.pins.latch with level := .low } }
        trace := s.trace ++ latchFall s } := by
  unfold pin latchFall
  split <;> simp_all [setLevel, emit, Pins.setLevel]

/-! ### A transfer -/

/-- One bit of a transfer enters SR at bit 0 (R72, R73). -/
theorem shiftBit_eq (b : Bool) (s : State) (h : s.pins.sck.level = .low) :
    shiftBit b s =
      { s with
        sr := s.sr.shiftIn (.ofBit b)
        pins := { s.pins with sdo := { s.pins.sdo with level := .ofBit b } }
        trace := s.trace ++ [.bit b] } := by
  obtain ⟨bus, sr, q, ⟨⟨d, l⟩, sdo, la⟩, cfg, done, ip, lr, tr, hz, ops, iv, dr⟩ := s
  obtain rfl : l = .low := h
  rfl

/-- The bits of a list of positions, one after the other; the level they leave on SDO is overwritten (R72). -/
theorem shiftBits_eq (b : Byte) (is : List Nat) (s : State) (h : s.pins.sck.level = .low) (v : Level) :
    setLevel .sdo v (is.foldl (fun t i => shiftBit (b.getLsbD i) t) s) =
      setLevel .sdo v
        { s with
          sr := is.foldl (fun c i => c.shiftIn (.ofBit (b.getLsbD i))) s.sr
          trace := s.trace ++ is.map fun i => .bit (b.getLsbD i) } := by
  induction is generalizing s with
  | nil => simp
  | cons i is ih =>
    rw [List.foldl_cons, ih (shiftBit (b.getLsbD i) s) (by rw [shiftBit_eq _ _ h]; exact h), shiftBit_eq _ _ h]
    simp [setLevel]

/-- TRANSFER (R71): SR holds the byte, DONE is set, SCK is at rest, BUS, Q and LATCH do not change. -/
theorem transferBody_eq (b : Byte) (s : State) :
    transferBody b s =
      { s with
        sr := .ofByte b
        pins := { s.pins with
          sck := { s.pins.sck with level := .low }
          sdo := { s.pins.sdo with level := .unknown } }
        done := true
        trace := s.trace ++ (bitEvents b ++ [.shift b]) } := by
  simp only [transferBody, pin_sck_low]
  rw [shiftBits_eq b _ _ rfl]
  simp [transferOrder, Config.cfgMsbFirst, emit, setDone, setLevel, bitEvents, ← stage_shiftIn_eight s.sr b]

/-! ### A commit -/

/-- COMMIT (R82): BUS, SR and Q hold the masked image, DONE is set, the lines are at idle, and one latch pulse is in the
trace. -/
theorem commitBody_eq (s : State) :
    commitBody s =
      committed s (maskBus s.bus) (maskBus s.bus)
        (latchFall s ++ commitEvents (maskBus s.bus) (firstSink s (maskBus s.bus))) := by
  unfold commitBody
  simp only [pin_latch_low, transferBody_eq]
  rw [pin_latch_rise _ rfl]
  have fall : latchFall (setBus (maskBus s.bus) s) = latchFall s := rfl
  simp only [fall]
  generalize latchFall s = ev
  simp [committed, firstSink, firstCapture, latchFall, commitEvents, latchRise, sinkLooks, emit, delay, setLevel,
    setBus, idlePins]

/-! ### Composing commits -/

@[simp] theorem captureEvents_nothing (k : Nat) : captureEvents .nothing k = [] := rfl
@[simp] theorem captureEvents_nibble (rs : Bool) (n : Nibble) (k : Nat) :
    captureEvents (.nibble rs n) k = [.nibble rs n] := rfl

theorem latchFall_committed (s : State) (a b : Byte) (ev : List Event) : latchFall (committed s a b ev) = [] := rfl
theorem firstCapture_committed (s : State) (a b c : Byte) (ev : List Event) :
    firstCapture (committed s a b ev) c = capture (.ofByte b) (.ofByte c) := rfl
theorem delay_committed (t : Wait) (s : State) (a b : Byte) (ev : List Event) :
    delay t (committed s a b ev) = committed s a b (ev ++ [.delay t]) := by
  simp [committed, delay, emit]

/-- A commit after commits, which draws nothing: only the last byte and the events remain to be told. -/
theorem committed_committed (s : State) (a b c d : Byte) (ev ev' : List Event)
    (draws : captureDraws (capture (.ofByte b) (.ofByte c)) = 0)
    (hazard : capture (.ofByte b) (.ofByte c) ≠ .changed) :
    committed (committed s a b ev) c d ev' = committed s a d (ev ++ ev') := by
  simp [committed, firstCapture] at *
  simp [draws, hazard, idlePins]

/-- A commit of the image `v` that WRITE_NIBBLE put into BUS, after a commit of `b`. -/
theorem commitBody_committed (s : State) (a b x v : Byte) (ev : List Event) (c : Capture) (hx : maskBus x = v)
    (hc : capture (.ofByte b) (.ofByte v) = c) (draws : captureDraws c = 0) (hazard : c ≠ .changed) :
    commitBody (setBus x (committed s a b ev)) = committed s a v (ev ++ commitEvents v (captureEvents c 0)) := by
  subst hx hc
  have step := committed_committed s a b (maskBus x) (maskBus x) ev
    (commitEvents (maskBus x) (captureEvents (capture (.ofByte b) (.ofByte (maskBus x))) 0)) draws hazard
  rw [← step, commitBody_eq]
  have free : ∀ k, captureEvents (capture (.ofByte b) (.ofByte (maskBus x))) k =
      captureEvents (capture (.ofByte b) (.ofByte (maskBus x))) 0 := by
    intro k
    cases h : capture (.ofByte b) (.ofByte (maskBus x)) <;> simp_all [captureDraws]
  rw [← free s.draws, free s.draws]
  simp only [firstSink, setBus_draws, setBus_bus]
  rw [show firstCapture (setBus x (committed s a b ev)) (maskBus x) = capture (.ofByte b) (.ofByte (maskBus x)) from rfl,
    free]
  rfl

/-! ### A nibble write -/

/-- Commit (a) of a nibble write, whatever BUS held before (R90). -/
theorem commit_load (x y z : Byte) (rs : Bool) (n : Nibble) (s : State) :
    commitBody (setBus (writeBit (writeDataLines (writeDataLines (writeBit s.bus 0 rs) 0) n) 1 false)
        (setBus x (setBus y (setBus z s)))) =
      committed s (bus8 rs false n) (bus8 rs false n)
        (latchFall s ++ commitEvents (bus8 rs false n) (firstSink s (bus8 rs false n))) := by
  rw [commitBody_eq, setBus_bus, nibble_image]
  rfl

/-- Commit (b): enable rises, the sink sees nothing (R90, R94 case 4). -/
theorem commit_raise (rs : Bool) (n : Nibble) (s : State) (a : Byte) (ev : List Event) :
    commitBody (setBus (writeBit (committed s a (bus8 rs false n) ev).bus 1 true) (committed s a (bus8 rs false n) ev)) =
      committed s a (bus8 rs true n) (ev ++ commitEvents (bus8 rs true n) []) :=
  commitBody_committed s a (bus8 rs false n) _ (bus8 rs true n) ev .nothing (by simp [committed])
    (capture_enable_low _ (bus8_enable _ _ _) _) rfl (by simp)

/-- Commit (c): enable falls, the sink captures the nibble (R90, R94 case 1). -/
theorem commit_lower (rs : Bool) (n : Nibble) (s : State) (a : Byte) (ev : List Event) :
    commitBody (setBus (writeBit (committed s a (bus8 rs true n) ev).bus 1 false) (committed s a (bus8 rs true n) ev)) =
      committed s a (bus8 rs false n) (ev ++ commitEvents (bus8 rs false n) [.nibble rs n]) :=
  commitBody_committed s a (bus8 rs true n) _ (bus8 rs false n) ev (.nibble rs n) (by simp [committed])
    (capture_enable_falls rs n) rfl (by simp)

/-- WRITE_NIBBLE (R90): three commits that differ in enable only, whatever BUS held. -/
theorem writeNibbleBody_eq (value : Byte) (rs : Bool) (s : State) :
    writeNibbleBody value rs s =
      committed s (bus8 rs false (lowNibble value)) (bus8 rs false (lowNibble value))
        (latchFall s ++ nibbleEvents rs (lowNibble value) (firstSink s (bus8 rs false (lowNibble value)))) := by
  generalize hn : lowNibble value = n
  simp only [writeNibbleBody, hn, setBus_bus, commit_load, delay_committed, commit_raise, commit_lower]
  simp only [nibbleEvents, List.append_assoc]

/-! ### Writes that follow a nibble write -/

/-- An operation that commits after commits that left enable low: no draw. -/
theorem committed_low (s : State) (a b c d : Byte) (ev ev' : List Event) (h : b.getLsbD 1 = false) :
    committed (committed s a b ev) c d ev' = committed s a d (ev ++ ev') :=
  committed_committed s a b c d ev ev' (by rw [capture_enable_low b h]; rfl) (by rw [capture_enable_low b h]; simp)

theorem firstSink_low (s : State) (a b c : Byte) (ev : List Event) (h : b.getLsbD 1 = false) :
    firstSink (committed s a b ev) c = [] := by
  rw [firstSink, firstCapture_committed, capture_enable_low b h]; rfl

/-- A nibble write after commits that left enable low. -/
theorem writeNibbleBody_committed (value : Byte) (rs : Bool) (s : State) (a : Byte) (r : Bool) (n : Nibble)
    (ev : List Event) :
    writeNibbleBody value rs (committed s a (bus8 r false n) ev) =
      committed s a (bus8 rs false (lowNibble value)) (ev ++ nibbleEvents rs (lowNibble value) []) := by
  rw [writeNibbleBody_eq, committed_low _ _ _ _ _ _ _ (bus8_enable _ _ _), latchFall_committed,
    firstSink_low _ _ _ _ _ (bus8_enable _ _ _), List.nil_append]

/-- An LCD byte (R53): the upper nibble, then the lower, from the upper's idle image. -/
theorem writeByteBody_eq (b : Byte) (rs : Bool) (s : State) :
    writeByteBody b rs s =
      committed s (bus8 rs false (b.extractLsb' 4 4)) (bus8 rs false (b.extractLsb' 0 4))
        (latchFall s ++ byteEvents rs b (firstSink s (bus8 rs false (b.extractLsb' 4 4)))) := by
  simp only [writeByteBody, writeNibbleBody_eq (upperValue b), writeNibbleBody_committed, lowNibble_upperValue,
    lowNibble_lowerValue, byteEvents, List.append_assoc]

/-- WRITE_COMMAND (R91): the byte in command mode, and T_LONG after a long command. -/
theorem writeCommandBody_eq (b : Byte) (s : State) :
    writeCommandBody b s =
      committed s (bus8 false false (b.extractLsb' 4 4)) (bus8 false false (b.extractLsb' 0 4))
        (latchFall s ++ commandEvents b (firstSink s (bus8 false false (b.extractLsb' 4 4)))) := by
  simp only [writeCommandBody, writeByteBody_eq, isLongCommand_iff, commandEvents]
  split
  · simp only [delay_committed, List.append_assoc]
  · rw [List.append_nil]

/-- A command byte after commits that left enable low. -/
theorem writeCommandBody_committed (d : Byte) (s : State) (a : Byte) (r : Bool) (n : Nibble) (ev : List Event) :
    writeCommandBody d (committed s a (bus8 r false n) ev) =
      committed s a (bus8 false false (d.extractLsb' 0 4)) (ev ++ commandEvents d []) := by
  rw [writeCommandBody_eq, committed_low _ _ _ _ _ _ _ (bus8_enable _ _ _), latchFall_committed,
    firstSink_low _ _ _ _ _ (bus8_enable _ _ _), List.nil_append]

/-! ### INIT -/

/-- A list of command bytes, not empty, after commits that left enable low. -/
theorem commands_committed (cs : List Byte) (c : Byte) (s : State) (a : Byte) (r : Bool) (n : Nibble)
    (ev : List Event) :
    (cs ++ [c]).foldl (fun t c => writeCommandBody c t) (committed s a (bus8 r false n) ev) =
      committed s a (bus8 false false (c.extractLsb' 0 4))
        (ev ++ (cs ++ [c]).flatMap fun c => commandEvents c []) := by
  induction cs generalizing r n ev with
  | nil => simp [writeCommandBody_committed]
  | cons d ds ih =>
    rw [List.cons_append, List.foldl_cons, writeCommandBody_committed, ih]
    simp [List.append_assoc]

/-- The last command byte of INIT: 0x0C in variant A, 0x01 in variant B (R111). -/
def lastInitCommand : InitVariant → Byte
  | .A => 0x0C
  | .B => 0x01

theorem initCommands_split (v : InitVariant) : ∃ cs, initCommands v = cs ++ [lastInitCommand v] := by
  cases v
  · exact ⟨[0x28, 0x08, 0x01, 0x06], rfl⟩
  · exact ⟨[0x28, 0x0C, 0x06], rfl⟩

/-- Ping 1 of INIT, the first commit of which is where Q may be unknown (R110, R151). -/
theorem first_ping (s : State) :
    writeNibbleBody pingNibble false (delay .power (setBus 0x00 (configureBody s))) =
      committed (setBus 0x00 (configureBody s)) (bus8 false false 0x3) (bus8 false false 0x3)
        ([.delay .power] ++ nibbleEvents false 0x3 (firstSink s (bus8 false false 0x3))) := by
  rw [writeNibbleBody_eq, show lowNibble pingNibble = 0x3 from rfl]
  simp [committed, latchFall, delay, emit, setBus, configureBody, firstSink, firstCapture, List.append_assoc]

/-- INIT (R110), from any state: CONFIGURE, BUS cleared, the nibble writes and commands, LCD_READY. -/
theorem initBody_eq (s : State) :
    initBody s =
      { committed (setBus 0x00 (configureBody s)) (bus8 false false 0x3)
          (bus8 false false ((lastInitCommand s.initVariant).extractLsb' 0 4)) [] with
        lcdReady := true
        trace := s.trace ++ initEvents s.initVariant (firstSink s (bus8 false false 0x3)) } := by
  obtain ⟨cs, hcs⟩ := initCommands_split s.initVariant
  have variant (a b : Byte) (ev : List Event) :
      (committed (setBus 0x00 (configureBody s)) a b ev).initVariant = s.initVariant := rfl
  simp only [initBody, first_ping, delay_committed, writeNibbleBody_committed, variant, hcs, commands_committed,
    show lowNibble pingNibble = 0x3 from rfl, show lowNibble switchNibble = 0x2 from rfl]
  simp [committed, setBus, configureBody, emit, initEvents, hcs, List.append_assoc]

end Sys2Proof.Machine
end

