-- ==== Sys2Proof/Laws/PerInstr.lean ====
section
/-!
SUPPORT. The family TableRow: the word the encoder writes for a well-formed operation carries the fixed bits that
spec/opcode_table.json gives its row (`word & mask = match`).
-/

namespace Sys2Proof.Laws.TableRow

/-- A word of the table as the number its bits are. -/
def number : TableWord → Nat
  | .req16 w => w.toNat
  | .lcd8 b => b.toNat
  | .nib4 n => n.toNat

/-- The row's mask, from spec/opcode_table.json. -/
def rowMask : Instr → Nat
  | .configure => 0xFFFF
  | .transfer _ => 0xFF00
  | .setSignal _ _ => 0xFFE8
  | .commit => 0xFFFF
  | .writeNibble _ _ => 0xFFE0
  | .writeCommand _ => 0xFF00
  | .writeData _ => 0xFF00
  | .gotoPosition _ _ => 0xFE00
  | .init => 0xFFFF
  | .lcdClearDisplay => 0xFF
  | .lcdReturnHome => 0xFF
  | .lcdEntryModeInc => 0xFF
  | .lcdDisplayOff => 0xFF
  | .lcdDisplayOn => 0xFF
  | .lcdFunctionSet4Bit => 0xFF
  | .lcdSetDdramRow0 _ => 0xC0
  | .lcdSetDdramRow1 _ => 0xC0
  | .ping8 => 0xF
  | .switch4 => 0xF

/-- The row's match, from spec/opcode_table.json. -/
def rowMatch : Instr → Nat
  | .configure => 0x0000
  | .transfer _ => 0x1000
  | .setSignal _ _ => 0x2000
  | .commit => 0x3000
  | .writeNibble _ _ => 0x4000
  | .writeCommand _ => 0x5000
  | .writeData _ => 0x6000
  | .gotoPosition _ _ => 0x7000
  | .init => 0x8000
  | .lcdClearDisplay => 0x01
  | .lcdReturnHome => 0x02
  | .lcdEntryModeInc => 0x06
  | .lcdDisplayOff => 0x08
  | .lcdDisplayOn => 0x0C
  | .lcdFunctionSet4Bit => 0x28
  | .lcdSetDdramRow0 _ => 0x80
  | .lcdSetDdramRow1 _ => 0xC0
  | .ping8 => 0x3
  | .switch4 => 0x2

/-- The encoder writes the fixed bits of the operation's row. -/
def Statement (i : Instr) : Prop :=
  i.wellFormed = true → number (encode i) &&& rowMask i = rowMatch i

theorem configure : Statement .configure := fun _ => rfl
theorem transfer (b : Byte) : Statement (.transfer b) := fun _ => by revert b; decide +kernel
theorem setSignal (name : Signal) (value : Bool) : Statement (.setSignal name value) := fun _ => by
  cases name <;> cases value <;> rfl
theorem commit : Statement .commit := fun _ => rfl
theorem writeNibble (value : Byte) (rs : Bool) : Statement (.writeNibble value rs) := fun _ => by
  revert value rs; decide +kernel
theorem writeCommand (b : Byte) : Statement (.writeCommand b) := fun _ => by revert b; decide +kernel
theorem writeData (b : Byte) : Statement (.writeData b) := fun _ => by revert b; decide +kernel
theorem gotoPosition (column : Byte) (row : Nat) : Statement (.gotoPosition column row) := fun h => by
  have two : row < 2 := by simpa [Instr.wellFormed] using h
  interval_cases row <;> revert column <;> decide +kernel
theorem init : Statement .init := fun _ => rfl
theorem lcdClearDisplay : Statement .lcdClearDisplay := fun _ => rfl
theorem lcdReturnHome : Statement .lcdReturnHome := fun _ => rfl
theorem lcdEntryModeInc : Statement .lcdEntryModeInc := fun _ => rfl
theorem lcdDisplayOff : Statement .lcdDisplayOff := fun _ => rfl
theorem lcdDisplayOn : Statement .lcdDisplayOn := fun _ => rfl
theorem lcdFunctionSet4Bit : Statement .lcdFunctionSet4Bit := fun _ => rfl
theorem lcdSetDdramRow0 (offset : BitVec 6) : Statement (.lcdSetDdramRow0 offset) := fun _ => by
  revert offset; decide +kernel
theorem lcdSetDdramRow1 (offset : BitVec 6) : Statement (.lcdSetDdramRow1 offset) := fun _ => by
  revert offset; decide +kernel
theorem ping8 : Statement .ping8 := fun _ => rfl
theorem switch4 : Statement .switch4 := fun _ => rfl

end Sys2Proof.Laws.TableRow
end

