-- ==== Sys2Proof/Laws/Step.lean ====
section
/-!
SUPPORT. What a meaning and a step can answer: inversion lemmas, cited instead of unfolding `exec` and `step`.
-/

namespace Sys2Proof.Machine

open Sys2Proof.Safety

/-- A body guarded by CFG.configured answers a next state exactly when the block is configured. -/
theorem ifConfigured_next {s t : State} {body : State → State} :
    ifConfigured s body = .next t ↔ s.cfg.configured = true ∧ body s = t := by
  unfold ifConfigured; split <;> simp_all

theorem ifConfigured_refused {s : State} {body : State → State} {r : Refusal} :
    ifConfigured s body = .refused r ↔ s.cfg.configured = false ∧ r = .notConfigured := by
  unfold ifConfigured
  split
  case isTrue h => simp [h]
  case isFalse h =>
    simp only [Host.Outcome.refused.injEq, Bool.not_eq_true] at h ⊢
    exact ⟨fun e => ⟨h, e.symm⟩, fun e => e.2.symm⟩

/-- The next states of `exec`, by the shared operation that makes them: everything a meaning can do when it completes. -/
inductive Completes (s : State) : Instr → State → Prop where
  | configure : Completes s .configure (configureBody s)
  | setSignal {name : Signal} {i : Nat} (value : Bool) (h : signalIndex name = some i) :
      Completes s (.setSignal name value) (setBus (writeBit s.bus i value) s)
  | init : Completes s .init (initBody s)
  | transfer (b : Byte) (h : s.cfg.configured = true) : Completes s (.transfer b) (transferBody b s)
  | commit (h : s.cfg.configured = true) : Completes s .commit (commitBody s)
  | nibble (i : Instr) (value : Byte) (rs : Bool) (h : s.cfg.configured = true) (hi : writesNibbles i = true)
      (hn : i ≠ .init) : Completes s i (writeNibbleBody value rs s)
  | data (b : Byte) (h : s.cfg.configured = true) : Completes s (.writeData b) (writeByteBody b true s)
  | command (i : Instr) (b : Byte) (h : s.cfg.configured = true) (hi : writesNibbles i = true) (hn : i ≠ .init) :
      Completes s i (writeCommandBody b s)

/-- If `exec` answers a next state, it is one of these. -/
theorem exec_next {i : Instr} {s t : State} (h : exec i s = .next t) : Completes s i t := by
  cases i
  case configure =>
    obtain rfl : configureBody s = t := Host.Outcome.next.inj h
    exact .configure
  case init =>
    obtain rfl : initBody s = t := Host.Outcome.next.inj h
    exact .init
  case setSignal name value =>
    simp only [exec, execSetSignal] at h
    split at h
    · cases h; exact .setSignal value ‹_›
    · cases h
  case gotoPosition column row =>
    simp only [exec, execGotoPosition] at h
    split at h
    · split at h
      · cases h
      · split at h
        · cases h
        · cases h; exact .command _ _ ‹_› rfl (by simp)
    · cases h
  case transfer b => obtain ⟨c, rfl⟩ := ifConfigured_next.mp h; exact .transfer b c
  case commit => obtain ⟨c, rfl⟩ := ifConfigured_next.mp h; exact .commit c
  case writeData b => obtain ⟨c, rfl⟩ := ifConfigured_next.mp h; exact .data b c
  case writeNibble => obtain ⟨c, rfl⟩ := ifConfigured_next.mp h; exact .nibble _ _ _ c rfl (by simp)
  case ping8 => obtain ⟨c, rfl⟩ := ifConfigured_next.mp h; exact .nibble _ _ _ c rfl (by simp)
  case switch4 => obtain ⟨c, rfl⟩ := ifConfigured_next.mp h; exact .nibble _ _ _ c rfl (by simp)
  all_goals obtain ⟨c, rfl⟩ := ifConfigured_next.mp h; exact .command _ _ c rfl (by simp)

/-- `finishOperation` answers a next state exactly when the operation did, with IP advanced. -/
theorem finishOperation_next {o : Host.Outcome State Fault Refusal} {t : State} :
    finishOperation o = .next t ↔ ∃ u, o = .next u ∧ t = advanceIp u := by
  cases o <;> simp [finishOperation, eq_comm]

/-- If a step answers a next state, the stream was at its end and nothing changed, or an operation completed. -/
theorem step_next {s t : State} (h : step s = .next t) :
    (currentRequest s = none ∧ t = s) ∨
      ∃ r i u, currentRequest s = some r ∧ requestInstr r = .ok i ∧ exec i s = .next u ∧ t = advanceIp u := by
  unfold step at h
  split at h
  · cases h; exact .inl ⟨‹_›, rfl⟩
  · split at h
    · obtain ⟨u, hu, rfl⟩ := finishOperation_next.mp h
      exact .inr ⟨_, _, u, ‹_›, ‹_›, hu, rfl⟩
    · cases h

/-- The request placed is the one the step fetches. -/
theorem currentRequest_placeRequest (r : Request) (s : State) : currentRequest (placeRequest r s) = some r := by
  simp only [currentRequest, placeRequest_ops, placeRequest_ip]
  rw [List.getElem?_set_self]
  simp only [List.length_append, List.length_replicate]
  omega

end Sys2Proof.Machine
end

