-- ==== Sys2Proof/Laws/Trace.lean ====
section
/-!
SUPPORT. The projections of the trace over appended events: what each operation adds to the history of the outputs, to the
nibbles the sink saw, to the bytes shifted and to the waits.
-/

namespace Sys2Proof.Safety

open Sys2Proof.Machine

@[simp] theorem outs_append (a b : List Event) : outs (a ++ b) = outs a ++ outs b := by simp [outs]
@[simp] theorem shifts_append (a b : List Event) : shifts (a ++ b) = shifts a ++ shifts b := by simp [shifts]
@[simp] theorem bits_append (a b : List Event) : bits (a ++ b) = bits a ++ bits b := by simp [bits]
@[simp] theorem nibbles_append (a b : List Event) : nibbles (a ++ b) = nibbles a ++ nibbles b := by simp [nibbles]
@[simp] theorem waits_append (a b : List Event) : waits (a ++ b) = waits a ++ waits b := by simp [waits]
@[simp] theorem byteTrace_append (a b : List Event) : byteTrace (a ++ b) = byteTrace a ++ byteTrace b := by
  simp [byteTrace]

/-! ### What the sink adds: nibbles only -/

@[simp] theorem outs_captureEvents (c : Capture) (k : Nat) : outs (captureEvents c k) = [] := by
  cases c <;> simp [captureEvents, outs]
@[simp] theorem shifts_captureEvents (c : Capture) (k : Nat) : shifts (captureEvents c k) = [] := by
  cases c <;> simp [captureEvents, shifts]
@[simp] theorem waits_captureEvents (c : Capture) (k : Nat) : waits (captureEvents c k) = [] := by
  cases c <;> simp [captureEvents, waits]

theorem nibbles_captureEvents_length (c : Capture) (k : Nat) : (nibbles (captureEvents c k)).length ≤ 1 := by
  cases c <;> simp [captureEvents, nibbles]

@[simp] theorem outs_firstSink (s : State) (v : Byte) : outs (firstSink s v) = [] := outs_captureEvents _ _
@[simp] theorem shifts_firstSink (s : State) (v : Byte) : shifts (firstSink s v) = [] := shifts_captureEvents _ _
@[simp] theorem waits_firstSink (s : State) (v : Byte) : waits (firstSink s v) = [] := waits_captureEvents _ _

@[simp] theorem outs_latchFall (s : State) : outs (latchFall s) = [] := by unfold latchFall; split <;> rfl
@[simp] theorem shifts_latchFall (s : State) : shifts (latchFall s) = [] := by unfold latchFall; split <;> rfl
@[simp] theorem waits_latchFall (s : State) : waits (latchFall s) = [] := by unfold latchFall; split <;> rfl
@[simp] theorem nibbles_latchFall (s : State) : nibbles (latchFall s) = [] := by unfold latchFall; split <;> rfl

/-! ### What a commit adds -/

theorem outs_commitEvents (v : Byte) (sink : List Event) :
    outs (commitEvents v sink) = .ofByte v :: outs sink := by
  simp [commitEvents, bitEvents, outs]
theorem shifts_commitEvents (v : Byte) (sink : List Event) : shifts (commitEvents v sink) = v :: shifts sink := by
  simp [commitEvents, bitEvents, shifts]
theorem nibbles_commitEvents (v : Byte) (sink : List Event) : nibbles (commitEvents v sink) = nibbles sink := by
  simp [commitEvents, bitEvents, nibbles]
theorem waits_commitEvents (v : Byte) (sink : List Event) : waits (commitEvents v sink) = waits sink ++ [.latch] := by
  simp [commitEvents, bitEvents, waits]

/-! ### What a nibble write, a byte and a command add -/

/-- The bytes a nibble write publishes (R90). -/
def nibbleOuts (rs : Bool) (n : Nibble) : List Stage :=
  [.ofByte (bus8 rs false n), .ofByte (bus8 rs true n), .ofByte (bus8 rs false n)]

theorem outs_nibbleEvents (rs : Bool) (n : Nibble) (sink : List Event) (h : outs sink = []) :
    outs (nibbleEvents rs n sink) = nibbleOuts rs n := by
  simp only [nibbleEvents, outs_append, outs_commitEvents, h]; rfl
theorem nibbles_nibbleEvents (rs : Bool) (n : Nibble) (sink : List Event) :
    nibbles (nibbleEvents rs n sink) = nibbles sink ++ [(rs, n)] := by
  simp only [nibbleEvents, nibbles_append, nibbles_commitEvents]; simp [nibbles]
theorem waits_nibbleEvents (rs : Bool) (n : Nibble) (sink : List Event) (h : waits sink = []) :
    waits (nibbleEvents rs n sink) = [.latch, .addressSetup, .latch, .latch, .exec] := by
  simp only [nibbleEvents, waits_append, waits_commitEvents, h]; rfl

theorem outs_byteEvents (rs : Bool) (b : Byte) (sink : List Event) (h : outs sink = []) :
    outs (byteEvents rs b sink) = nibbleOuts rs (b.extractLsb' 4 4) ++ nibbleOuts rs (b.extractLsb' 0 4) := by
  rw [byteEvents, outs_append, outs_nibbleEvents _ _ _ h, outs_nibbleEvents _ _ _ rfl]
theorem nibbles_byteEvents (rs : Bool) (b : Byte) (sink : List Event) :
    nibbles (byteEvents rs b sink) = nibbles sink ++ [(rs, b.extractLsb' 4 4), (rs, b.extractLsb' 0 4)] := by
  rw [byteEvents, nibbles_append, nibbles_nibbleEvents, nibbles_nibbleEvents]; simp [nibbles]

theorem outs_commandEvents (b : Byte) (sink : List Event) (h : outs sink = []) :
    outs (commandEvents b sink) =
      nibbleOuts false (b.extractLsb' 4 4) ++ nibbleOuts false (b.extractLsb' 0 4) := by
  rw [commandEvents, outs_append, outs_byteEvents _ _ _ h]
  split <;> simp [outs]
theorem nibbles_commandEvents (b : Byte) (sink : List Event) :
    nibbles (commandEvents b sink) =
      nibbles sink ++ [(false, b.extractLsb' 4 4), (false, b.extractLsb' 0 4)] := by
  rw [commandEvents, nibbles_append, nibbles_byteEvents]
  split <;> simp [nibbles]

/-! ### What an operation that writes nibbles does -/

/-- The bytes a list of nibble writes publishes. -/
def pulses (ps : List (Bool × Nibble)) : List Stage := ps.flatMap fun p => nibbleOuts p.1 p.2

/-- Any operation that writes nibbles, but INIT, is a row of commits whose published bytes are nibble writes, the last of
them the image it leaves. -/
theorem nibbles_written {i : Instr} {s t : State} (hw : writesNibbles i = true) (hn : i ≠ .init)
    (h : exec i s = .next t) :
    s.cfg.configured = true ∧ ∃ rs n n' ev ps,
      t = committed s (bus8 rs false n) (bus8 rs false n') (latchFall s ++ ev) ∧ outs ev = pulses ps ++ nibbleOuts rs n' := by
  cases exec_next h with
  | configure => cases hw
  | setSignal => cases hw
  | transfer => cases hw
  | commit => cases hw
  | init => exact absurd rfl hn
  | nibble _ value rs hc =>
    refine ⟨hc, _, _, _, _, [], writeNibbleBody_eq _ _ _, ?_⟩
    rw [outs_nibbleEvents _ _ _ (outs_firstSink _ _)]; rfl
  | data b hc =>
    refine ⟨hc, _, _, _, _, [(true, b.extractLsb' 4 4)], writeByteBody_eq _ _ _, ?_⟩
    rw [outs_byteEvents _ _ _ (outs_firstSink _ _)]; simp [pulses]
  | command _ b hc =>
    refine ⟨hc, _, _, _, _, [(false, b.extractLsb' 4 4)], writeCommandBody_eq _ _, ?_⟩
    rw [outs_commandEvents _ _ (outs_firstSink _ _)]; simp [pulses]

/-- The bytes INIT publishes do not depend on the state, only on the variant. -/
theorem outs_initEvents (v : InitVariant) (sink : List Event) (h : outs sink = []) :
    outs (initEvents v sink) = outs (initEvents v []) := by
  simp only [initEvents, outs_append, outs_nibbleEvents _ _ _ h, outs_nibbleEvents _ _ [] rfl]

/-- The waits INIT takes do not depend on the state, only on the variant. -/
theorem waits_initEvents (v : InitVariant) (sink : List Event) (h : waits sink = []) :
    waits (initEvents v sink) = waits (initEvents v []) := by
  simp only [initEvents, waits_append, waits_nibbleEvents _ _ _ h, waits_nibbleEvents _ _ [] rfl]

/-! ### Whole enable pulses, and pairs -/

theorem enablePulses_nibbleOuts (rs : Bool) (n : Nibble) (rest : List Stage) (h : EnablePulses rest) :
    EnablePulses (nibbleOuts rs n ++ rest) := by
  refine ⟨⟨bus8 rs false n, bus8_lt _ _ _, bus8_enable _ _ _, rfl, ?_, rfl⟩, h⟩
  congr 1
  revert rs n; decide

/-- The nibbles of a byte pair up into that byte (R95). -/
theorem lcdBytes_pair (r : Bool) (b : Byte) (rest : List (Bool × Nibble)) :
    lcdBytes ((r, b.extractLsb' 4 4) :: (r, b.extractLsb' 0 4) :: rest) =
      (lcdBytes rest).map fun bs => (r, b) :: bs := by
  have whole : b.extractLsb' 4 4 ++ b.extractLsb' 0 4 = b := by revert b; decide +kernel
  simp [lcdBytes, whole]

/-- Bytes already paired stay as they are when nibbles are added (R95). -/
theorem lcdBytes_append {a b : List (Bool × Nibble)} {xs : List (Bool × Byte)} (h : lcdBytes a = some xs) :
    lcdBytes (a ++ b) = (lcdBytes b).map (xs ++ ·) := by
  induction a using lcdBytes.induct generalizing xs with
  | case1 => cases h; simp
  | case2 => cases h
  | case3 r u l rest ih =>
    simp only [lcdBytes, if_true, Option.map_eq_some_iff] at h
    obtain ⟨ys, hy, rfl⟩ := h
    simp [lcdBytes, ih hy, Function.comp_def]
  | case4 r u r' l rest hr => simp [lcdBytes, hr] at h

/-- Events without a T_PING3 only add their nibbles. -/
theorem foldl_hearEvent {ev : List Event} (h : Wait.ping3 ∉ waits ev) (heard : Option (List (Bool × Nibble))) :
    ev.foldl hearEvent heard = heard.map (· ++ nibbles ev) := by
  induction ev generalizing heard with
  | nil => cases heard <;> simp [nibbles]
  | cons e es ih =>
    have tail : Wait.ping3 ∉ waits es := fun m => h (by
      rw [show e :: es = [e] ++ es from rfl, waits_append]; exact List.mem_append_right _ m)
    rw [List.foldl_cons, ih tail]
    cases e with
    | delay t => cases t <;> first | exact absurd (List.mem_cons_self ..) h | rfl
    | nibble rs n => cases heard <;> simp [hearEvent, nibbles]
    | _ => rfl

/-- The bytes seen, after events that hold no INIT: those seen before and what the new nibbles pair into (R95). -/
theorem lcdBytesSeen_append {tr ev : List Event} {xs : List (Bool × Byte)} (h : lcdBytesSeen tr = some xs)
    (hw : Wait.ping3 ∉ waits ev) : lcdBytesSeen (tr ++ ev) = (lcdBytes (nibbles ev)).map (xs ++ ·) := by
  simp only [lcdBytesSeen, nibblesAfterSwitch, nibblesFromSwitch, Option.bind_eq_some_iff] at h
  obtain ⟨after, ⟨heard, hf, ht⟩, hb⟩ := h
  cases heard with
  | nil => cases ht
  | cons switch rest =>
    cases ht
    simp [lcdBytesSeen, nibblesAfterSwitch, nibblesFromSwitch, List.foldl_append, hf, foldl_hearEvent hw, lcdBytes_append hb]

/-- The bytes seen after an INIT's events are its commands, whatever stands before it and whatever its first commit makes
the sink see (R95, R110). -/
theorem lcdBytesSeen_initEvents (tr sink : List Event) (v : InitVariant) :
    lcdBytesSeen (tr ++ initEvents v sink) = some (initBytesSeen v) := by
  have fresh : ∀ heard, (nibbleEvents false 0x2 [] ++ (initCommands v).flatMap fun c => commandEvents c []).foldl
      hearEvent ((Event.delay .ping3 :: []).foldl hearEvent heard) =
        some (nibbles (nibbleEvents false 0x2 [] ++ (initCommands v).flatMap fun c => commandEvents c [])) := by
    intro heard
    rw [foldl_hearEvent (by cases v <;> decide)]
    rfl
  simp only [lcdBytesSeen, nibblesAfterSwitch, nibblesFromSwitch, initEvents, List.foldl_append] at fresh ⊢
  rw [fresh]
  cases v <;> decide +kernel

/-! ### An operation whose first commit meets enable low -/

/-- The sink takes nothing from the first commit where Q has enable low (R94 case 4). -/
theorem firstSink_of_enable_low {s : State} (h : OutputsEnableLow s) (v : Byte) : firstSink s v = [] := by
  obtain ⟨o, ho, hl⟩ := h
  rw [firstSink, firstCapture, ho, capture_enable_low _ hl]; rfl

theorem ping3_notMem_waits_nibbleEvents (rs : Bool) (n : Nibble) : Wait.ping3 ∉ waits (nibbleEvents rs n []) := by
  rw [waits_nibbleEvents _ _ _ rfl]; decide

theorem ping3_notMem_waits_byteEvents (rs : Bool) (b : Byte) : Wait.ping3 ∉ waits (byteEvents rs b []) := by
  simp [byteEvents, ping3_notMem_waits_nibbleEvents]

theorem ping3_notMem_waits_commandEvents (b : Byte) : Wait.ping3 ∉ waits (commandEvents b []) := by
  rw [commandEvents, waits_append, List.mem_append, not_or]
  refine ⟨ping3_notMem_waits_byteEvents _ _, ?_⟩
  split <;> decide

/-- The bytes seen after an operation that commits and is not INIT (R95). -/
theorem lcdBytesSeen_committed {s : State} {xs : List (Bool × Byte)} (h : lcdBytesSeen s.trace = some xs)
    {ev : List Event} (hw : Wait.ping3 ∉ waits ev) (first last : Byte) :
    lcdBytesSeen (committed s first last (latchFall s ++ ev)).trace = (lcdBytes (nibbles ev)).map (xs ++ ·) := by
  have none : Wait.ping3 ∉ waits (latchFall s ++ ev) := by simpa using hw
  simpa [committed] using lcdBytesSeen_append h none

end Sys2Proof.Safety
end

