-- ==== Sys2Proof/Tests/Slice0.lean ====
section
/-!
SUPPORT. Tests: the well-formedness smoke, words written out bit by bit from spec/30_encoding.md R55 and R57, the vectors of
spec/95_test_vectors.md (each test names its vector), and a witness for the hypotheses of each statement.
-/

namespace Sys2Proof.Tests

open Sys2Proof.Machine Sys2Proof.Safety

/-! ### Helpers -/

/-- A configured block, nothing committed yet. -/
def fresh : State :=
  { State.reset with
    pins :=
      { sck := { dir := .output, level := .low }
        sdo := { dir := .output, level := .unknown }
        latch := { dir := .output, level := .low } }
    cfg := { configured := true, div := some Config.sckDiv } }

/-- A configured block with `b` in BUS, and `o` committed. -/
def holding (b o : Byte) : State := { fresh with bus := b, sr := .ofByte o, q := .ofByte o }

/-- The state answered, the reset state where none is. -/
def after : Host.Outcome State Fault Refusal → State
  | .next s => s
  | .fault _ => State.reset
  | .refused _ => State.reset

def isNext : Host.Outcome State Fault Refusal → Bool
  | .next _ => true
  | .fault _ => false
  | .refused _ => false

/-- The state after `i`. -/
def ran (i : Instr) (s : State) : State := after (exec i s)

/-- The published bytes of `bs`. -/
def stages (bs : List Byte) : List Stage := bs.map .ofByte

/-! ### Well-formedness: an ill-formed term for each check -/

theorem test_illFormed_wideNibble : (Instr.writeNibble 0x1F true).wellFormed = false := by decide
theorem test_illFormed_rowTwo : (Instr.gotoPosition 0 2).wellFormed = false := by decide
theorem test_wellFormed_boundary :
    (Instr.writeNibble 0x0F true).wellFormed = true ∧ (Instr.gotoPosition 0xFF 1).wellFormed = true := by decide

/-! ### Words written out from the encoding tables -/

theorem test_decode_configure : decode (.req16 0b0000000000000000) = .ok .configure := rfl
theorem test_decode_transfer : decode (.req16 0b0001000010100101) = .ok (.transfer 0xA5) := rfl
theorem test_decode_setSignal : decode (.req16 0b0010000000010101) = .ok (.setSignal .d7 true) := rfl
theorem test_decode_setSignal_unnamed : decode (.req16 0b0010000000010111) = .ok (.setSignal .unnamed7 true) := rfl
theorem test_decode_commit : decode (.req16 0b0011000000000000) = .ok .commit := rfl
theorem test_decode_writeNibble : decode (.req16 0b0100000000011010) = .ok (.writeNibble 0xA true) := rfl
theorem test_decode_writeCommand : decode (.req16 0b0101000000101000) = .ok (.writeCommand 0x28) := rfl
theorem test_decode_writeData : decode (.req16 0b0110000001001000) = .ok (.writeData 0x48) := rfl
theorem test_decode_gotoPosition : decode (.req16 0b0111000100000011) = .ok (.gotoPosition 3 1) := rfl
theorem test_decode_init : decode (.req16 0b1000000000000000) = .ok .init := rfl
theorem test_decode_lcdClearDisplay : decode (.lcd8 0b00000001) = .ok .lcdClearDisplay := rfl
theorem test_decode_lcdReturnHome : decode (.lcd8 0b00000010) = .ok .lcdReturnHome := rfl
theorem test_decode_lcdEntryModeInc : decode (.lcd8 0b00000110) = .ok .lcdEntryModeInc := rfl
theorem test_decode_lcdDisplayOff : decode (.lcd8 0b00001000) = .ok .lcdDisplayOff := rfl
theorem test_decode_lcdDisplayOn : decode (.lcd8 0b00001100) = .ok .lcdDisplayOn := rfl
theorem test_decode_lcdFunctionSet4Bit : decode (.lcd8 0b00101000) = .ok .lcdFunctionSet4Bit := rfl
theorem test_decode_lcdSetDdramRow0 : decode (.lcd8 0b10000011) = .ok (.lcdSetDdramRow0 3) := rfl
theorem test_decode_lcdSetDdramRow1 : decode (.lcd8 0b11111111) = .ok (.lcdSetDdramRow1 63) := rfl
theorem test_decode_ping8 : decode (.nib4 0b0011) = .ok .ping8 := rfl
theorem test_decode_switch4 : decode (.nib4 0b0010) = .ok .switch4 := rfl
theorem test_decode_reserved :
    decode (.req16 0x7200) = .error .mustBeZeroSet ∧ decode (.req16 0xF123) = .error .reservedSelector := ⟨rfl, rfl⟩

/-- The table's numbering: sixteen bits, eight bits, four bits, and a lone nibble given in a whole byte. -/
theorem test_decodeTableWord :
    decodeTableWord 16 0x7103 = some (.gotoPosition 3 1) ∧ decodeTableWord 8 0x02 = some .lcdReturnHome
      ∧ decodeTableWord 4 0x2 = some .switch4 ∧ decodeTableWord 8 0x03 = some .ping8
      ∧ decodeTableWord 16 0x9000 = none := ⟨rfl, rfl, rfl, rfl, rfl⟩

/-! ### The step -/

/-- T1 of the vectors, as the first step after reset. -/
theorem test_step_configure :
    step (State.reset.withFetchWord 16 0x0000) =
      .next { ran .configure (State.reset.withFetchWord 16 0x0000) with ip := 1 } := rfl

/-- P4: `[COMMIT]` from reset. -/
theorem test_step_commit_refused : step (State.reset.withFetchWord 16 0x3000) = .refused .notConfigured := rfl

/-- P4: `GOTO_POSITION 64, 0` once configured. -/
theorem test_step_goto_refused : step (fresh.withFetchWord 16 0x7040) = .refused .columnOutOfRange := rfl

/-- Vector of 0x2008: a must-be-zero bit. -/
theorem test_step_reserved : step (fresh.withFetchWord 16 0x2008) = .refused .reservedRequest := rfl

/-- INIT runs as the first step after reset, Q unknown. -/
theorem test_step_init : isNext (step (State.reset.withFetchWord 16 0x8000)) = true := rfl

/-- The idle loop (R132). -/
theorem test_step_idle : step State.reset = .next State.reset := rfl

/-! ### CONFIGURE, TRANSFER -/

/-- T1. -/
theorem test_configure :
    (ran .configure State.reset).cfg.configured = true ∧ (ran .configure State.reset).pins.sck.level = .low
      ∧ (ran .configure State.reset).pins.latch.level = .low ∧ (ran .configure State.reset).q = .unknown
      ∧ (ran .configure State.reset).trace = [.cfg] := ⟨rfl, rfl, rfl, rfl, rfl⟩

/-- T3 and T4: SR, Q, the bits on SDO, and the byte-level trace. -/
theorem test_transfer :
    let s := ran (.transfer 0x0E) { holding 0 0 with sr := .ofByte 0xA5 }
    s.sr = .ofByte 0x0E ∧ s.q = .ofByte 0x00 ∧ bits s.trace = [false, false, false, false, true, true, true, false]
      ∧ byteTrace s.trace = [.shift 0x0E] := by decide +kernel

/-- T4: SR after the first and after the fifth SCK↑. -/
theorem test_shiftIn :
    (Stage.ofByte 0xA5).shiftIn .low = .ofByte 0x4A ∧ (Stage.ofByte 0x50).shiftIn .high = .ofByte 0xA1 := by decide

/-- T6 and T7: SR unknown before; the transport does not mask. -/
theorem test_transfer_unmasked : (ran (.transfer 0xC1) fresh).sr = .ofByte 0xC1 := by decide +kernel

/-! ### SET_SIGNAL, COMMIT -/

/-- B4 and B6. -/
theorem test_setSignal :
    (ran (.setSignal .d6 false) (holding 0x3F 0)).bus = 0x2F ∧ (ran (.setSignal .rs true) State.reset).bus = 0x01 := by
  decide

/-- B7. -/
theorem test_setSignal_unnamed : exec (.setSignal .unnamed6 false) fresh = .refused .reservedSignal := rfl

/-- B9: enable falls with the nibble unchanged; the nibble stands after Out. -/
theorem test_commit_captures :
    byteTrace (ran .commit (holding 0x0C 0x0E)).trace =
      [.shift 0x0C, .latchUp, .out (.ofByte 0x0C), .nibble false 0x3, .delay .latch, .latchDown] := by decide +kernel

/-- B13 and B15: the mask; a capture while data changes violates R153. -/
theorem test_commit_masks_and_hazard :
    (ran .commit (holding 0xFF 0x3F)).q = .ofByte 0x3F ∧ (ran .commit (holding 0x10 0x0E)).hazardR153 = true := by
  decide +kernel

/-! ### WRITE_NIBBLE, WRITE_COMMAND, WRITE_DATA, GOTO_POSITION -/

/-- N3: the full trace of 18 events. -/
theorem test_writeNibble_trace :
    byteTrace (ran (.writeNibble 0x3 false) (holding 0 0)).trace =
      [.shift 0x0C, .latchUp, .out (.ofByte 0x0C), .delay .latch, .latchDown, .delay .addressSetup,
        .shift 0x0E, .latchUp, .out (.ofByte 0x0E), .delay .latch, .latchDown,
        .shift 0x0C, .latchUp, .out (.ofByte 0x0C), .nibble false 0x3, .delay .latch, .latchDown,
        .delay .exec] := by decide +kernel

/-- N9 and N12: the value is masked; enable left high in BUS is lowered for commit (a). -/
theorem test_writeNibble_masks :
    outs (ran (.writeNibble 0x1F true) (holding 0 0)).trace = stages [0x3D, 0x3F, 0x3D]
      ∧ outs (ran (.writeNibble 0x3 false) (holding 0x02 0)).trace = stages [0x0C, 0x0E, 0x0C] := by decide +kernel

/-- C6, V-SRC-4. -/
theorem test_writeCommand :
    outs (ran (.writeCommand 0x28) (holding 0 0)).trace = stages [0x08, 0x0A, 0x08, 0x20, 0x22, 0x20]
      ∧ nibbles (ran (.writeCommand 0x28) (holding 0 0)).trace = [(false, 0x2), (false, 0x8)] := by decide +kernel

/-- C2 and C10: the last waits of a long command and of 0x03. -/
theorem test_writeCommand_waits :
    (waits (ran (.writeCommand 0x02) (holding 0 0)).trace).drop 9 = [.exec, .long]
      ∧ (waits (ran (.writeCommand 0x03) (holding 0 0)).trace).drop 9 = [.exec] := by decide +kernel

/-- D1 and D6: data bytes, never long. -/
theorem test_writeData :
    outs (ran (.writeData 0x48) (holding 0 0)).trace = stages [0x11, 0x13, 0x11, 0x21, 0x23, 0x21]
      ∧ (waits (ran (.writeData 0x01) (holding 0 0)).trace).drop 9 = [.exec] := by decide +kernel

/-- G3 and G5. -/
theorem test_gotoPosition :
    outs (ran (.gotoPosition 3 1) (holding 0 0)).trace = stages [0x30, 0x32, 0x30, 0x0C, 0x0E, 0x0C]
      ∧ outs (ran (.gotoPosition 63 0) (holding 0 0)).trace = stages [0x2C, 0x2E, 0x2C, 0x3C, 0x3E, 0x3C] := by
  decide +kernel

/-- G7 to G10: the refusals in their order. -/
theorem test_gotoPosition_refusals :
    exec (.gotoPosition 64 0) fresh = .refused .columnOutOfRange
      ∧ exec (.gotoPosition 0 2) fresh = .refused .rowOutOfRange
      ∧ exec (.gotoPosition 64 2) fresh = .refused .rowOutOfRange
      ∧ exec (.gotoPosition 64 2) State.reset = .refused .notConfigured := ⟨rfl, rfl, rfl, rfl⟩

/-! ### INIT and the other rows -/

/-- The 42 bytes of variant A, and the length of its byte-level trace from a known Q (section 2.4). -/
theorem test_init_A :
    outs (ran .init (holding 0 0)).trace =
      stages ([0x0C, 0x0E, 0x0C, 0x0C, 0x0E, 0x0C, 0x0C, 0x0E, 0x0C, 0x08, 0x0A, 0x08]
        ++ [0x08, 0x0A, 0x08, 0x20, 0x22, 0x20, 0x00, 0x02, 0x00, 0x20, 0x22, 0x20]
        ++ [0x00, 0x02, 0x00, 0x04, 0x06, 0x04, 0x00, 0x02, 0x00, 0x18, 0x1A, 0x18]
        ++ [0x00, 0x02, 0x00, 0x30, 0x32, 0x30])
      ∧ (byteTrace (ran .init (holding 0 0)).trace).length = 258 := by decide +kernel

/-- Variant B: the length of its byte-level trace, the end state, and the last wait (section 2.4). -/
theorem test_init_B :
    let s := ran .init { holding 0 0 with initVariant := .B }
    (byteTrace s.trace).length = 222 ∧ s.bus = 0x04 ∧ s.q = .ofByte 0x04 ∧ s.lcdReady = true
      ∧ (waits s.trace).getLast? = some .long := by decide +kernel

/-- C1. -/
theorem test_lcdClearDisplay :
    outs (ran .lcdClearDisplay (holding 0 0)).trace = stages [0x00, 0x02, 0x00, 0x04, 0x06, 0x04] := by decide +kernel
/-- C2. -/
theorem test_lcdReturnHome :
    outs (ran .lcdReturnHome (holding 0 0)).trace = stages [0x00, 0x02, 0x00, 0x08, 0x0A, 0x08] := by decide +kernel
/-- C3. -/
theorem test_lcdEntryModeInc :
    outs (ran .lcdEntryModeInc (holding 0 0)).trace = stages [0x00, 0x02, 0x00, 0x18, 0x1A, 0x18] := by decide +kernel
/-- C4. -/
theorem test_lcdDisplayOff :
    outs (ran .lcdDisplayOff (holding 0 0)).trace = stages [0x00, 0x02, 0x00, 0x20, 0x22, 0x20] := by decide +kernel
/-- C5. -/
theorem test_lcdDisplayOn :
    outs (ran .lcdDisplayOn (holding 0 0)).trace = stages [0x00, 0x02, 0x00, 0x30, 0x32, 0x30] := by decide +kernel
/-- C6. -/
theorem test_lcdFunctionSet4Bit :
    outs (ran .lcdFunctionSet4Bit (holding 0 0)).trace = stages [0x08, 0x0A, 0x08, 0x20, 0x22, 0x20] := by
  decide +kernel
/-- C7. -/
theorem test_lcdSetDdramRow0 :
    outs (ran (.lcdSetDdramRow0 0) (holding 0 0)).trace = stages [0x20, 0x22, 0x20, 0x00, 0x02, 0x00] := by
  decide +kernel
/-- G6 and C8: the largest command byte. -/
theorem test_lcdSetDdramRow1 :
    outs (ran (.lcdSetDdramRow1 63) (holding 0 0)).trace = stages [0x3C, 0x3E, 0x3C, 0x3C, 0x3E, 0x3C] := by
  decide +kernel
/-- N3. -/
theorem test_ping8 : outs (ran .ping8 (holding 0 0)).trace = stages [0x0C, 0x0E, 0x0C] := by decide +kernel
/-- N4. -/
theorem test_switch4 : outs (ran .switch4 (holding 0 0)).trace = stages [0x08, 0x0A, 0x08] := by decide +kernel

/-- V-SRC-7: "Hi" pairs up into its characters. -/
theorem test_lcdBytes :
    lcdBytes [(true, 0x4), (true, 0x8), (true, 0x6), (true, 0x9)] = some [(true, 0x48), (true, 0x69)]
      ∧ lcdBytes [(true, 0x4), (false, 0x8)] = none ∧ lcdBytes [(true, 0x4)] = none := by decide

/-- V-SRC-7: after INIT in variant B and "Hi" the sink has seen the four commands, then the two characters; a nibble
before the INIT is not paired. -/
theorem test_lcdBytesSeen :
    lcdBytesSeen (ran (.writeData 0x69) (ran (.writeData 0x48) (ran .init (ran .ping8 { holding 0 0 with initVariant := .B })))).trace
        = some [(false, 0x28), (false, 0x0C), (false, 0x06), (false, 0x01), (true, 0x48), (true, 0x69)]
      ∧ lcdBytesSeen (ran .ping8 (ran .ping8 (holding 0 0))).trace = none := by decide +kernel

/-! ### Witnesses: a state and operands that meet the hypotheses of each statement -/

theorem witness_DecodeOfEncodeIsTheOperation :
    (Instr.writeNibble 15 true).wellFormed = true ∧ (Instr.gotoPosition 255 1).wellFormed = true := by decide
theorem witness_EncodeOfDecodedRequestIsTheWord : decode (.req16 0x71FF) = .ok (.gotoPosition 0xFF 1) := rfl

/-- A stream whose request at IP is a call, and one whose request is a word; one completes, one is refused. -/
theorem witness_StepRunsTheDecodedOperation :
    ({ fresh with ops := [.call .commit] } : State).ops[0]? = some (.call .commit)
      ∧ isNext (exec .commit { fresh with ops := [.call .commit] }) = true
      ∧ (fresh.withFetchWord 16 0x7040).ops[0]? = some (.word (.req16 0x7040))
      ∧ decode (.req16 0x7040) = .ok (.gotoPosition 64 0)
      ∧ exec (.gotoPosition 64 0) (fresh.withFetchWord 16 0x7040) = .refused .columnOutOfRange :=
  ⟨rfl, rfl, rfl, rfl, rfl⟩
theorem witness_StepIdlesAtTheEndOfTheStream : State.reset.ops.length ≤ State.reset.ip := by decide
theorem witness_StepRefusesAReservedWord :
    (State.reset.withFetchWord 16 0x9000).ops[0]? = some (.word (.req16 0x9000))
      ∧ decode (.req16 0x9000) = .error .reservedSelector := ⟨rfl, rfl⟩
theorem witness_PlacedWordIsRunByTheNextStep :
    decodeTableWord 16 0x8000 = some .init ∧ isNext (exec .init (State.reset.withFetchWord 16 0x8000)) = true :=
  ⟨rfl, rfl⟩
theorem witness_StreamAndVariantNeverChange :
    isNext (exec .init State.reset) = true ∧ isNext (step (State.reset.withFetchWord 16 0x0000)) = true
      ∧ isNext (step State.reset) = true := ⟨rfl, rfl, rfl⟩

/-- Operations that have a meaning: before CONFIGURE, and at the last row and column after it; and streams whose request
at IP has one, or that are at their end. -/
theorem witness_EveryOperationCompletesUnlessRefused :
    ¬HasNoMeaning (.setSignal .d7 true) State.reset ∧ ¬HasNoMeaning .init State.reset
      ∧ ¬HasNoMeaning (.gotoPosition 63 1) fresh
      ∧ (∃ i, requestInstr (.word (.req16 0x713F)) = .ok i ∧ ¬HasNoMeaning i fresh)
      ∧ ∀ r, State.reset.ops[State.reset.ip]? ≠ some r := by
  have goto : ¬HasNoMeaning (.gotoPosition 63 1) fresh := by simp [HasNoMeaning, fresh]
  exact ⟨by simp [HasNoMeaning, needsConfigured, writesNibbles], by simp [HasNoMeaning, needsConfigured], goto,
    ⟨_, rfl, goto⟩, by simp [State.reset]⟩

/-- Each of the four refusals happens. -/
theorem witness_RefusalsAreExactlyTheListed :
    exec .commit State.reset = .refused .notConfigured ∧ exec (.setSignal .unnamed7 true) State.reset = .refused .reservedSignal
      ∧ exec (.gotoPosition 0 2) fresh = .refused .rowOutOfRange
      ∧ exec (.gotoPosition 64 1) fresh = .refused .columnOutOfRange := ⟨rfl, rfl, rfl, rfl⟩
theorem witness_ConfigureIsIdempotent : isNext (exec .configure fresh) = true := rfl
theorem witness_TransferResult : fresh.cfg.configured = true := rfl
theorem witness_TransferSendsMostSignificantBitFirst : (holding 0 0).cfg.configured = true := rfl
theorem witness_OldStagingBitsAreLost : ({ fresh with sr := .ofByte 0xA5 } : State).cfg.configured = true := rfl
theorem witness_BitLevelTransferRefinesByteLevel : (holding 0x3F 0x3F).cfg.configured = true := rfl
theorem witness_SetSignalWritesTheMappedBit :
    (Signal.rs, 0) ∈ [(Signal.rs, 0), (.e, 1), (.d4, 2), (.d5, 3), (.d6, 4), (.d7, 5)]
      ∧ (Signal.d7, 5) ∈ [(Signal.rs, 0), (.e, 1), (.d4, 2), (.d5, 3), (.d6, 4), (.d7, 5)] := by decide
theorem witness_CommitResult : (holding 0xFF 0x00).cfg.configured = true := rfl
theorem witness_CommittedByteIsBus8 :
    (holding 0xFF 0x00).cfg.configured = true ∧ (holding 0xFF 0x00).bus.getLsbD 0 = true
      ∧ (holding 0xFF 0x00).bus.getLsbD 1 = true ∧ (holding 0xFF 0x00).bus.extractLsb' 2 4 = 0xF
      ∧ bus8 true true 0xF = bus8 true true 0xF := by decide
theorem witness_CommitMakesOneLatchPulse : fresh.cfg.configured = true ∧ fresh.pins.latch.level = .low := ⟨rfl, rfl⟩
theorem witness_SetSignalsBatchIntoOneTransition :
    fresh.cfg.configured = true
      ∧ ∀ x ∈ [(Signal.d4, true), (Signal.d4, false), (Signal.rs, true)], x.1 ≠ .unnamed6 ∧ x.1 ≠ .unnamed7 := by
  decide

/-- Each of the cases of R94 arises: a fall with the nibble kept (0x0E to 0x0C); a fall with data changed (0x0E to 0x10)
and with register-select changed (0x0E to 0x0D); enable low out of the unknown; and the three without an event. -/
theorem witness_SinkCapturesByTheFourCases :
    (holding 0x0C 0x0E).cfg.configured = true ∧ (holding 0x0C 0x0E).bus &&& 0x3F = 0x0C
      ∧ (holding 0x0C 0x0E).q = .ofByte 0x0E ∧ (0x0E#8).getLsbD 1 = true ∧ (0x0C#8).getLsbD 1 = false
      ∧ (0x0E#8).getLsbD 0 = (0x0C#8).getLsbD 0 ∧ (0x0E#8).extractLsb' 2 4 = (0x0C#8).extractLsb' 2 4
      ∧ ¬((0x0E#8).getLsbD 0 = (0x10#8).getLsbD 0 ∧ (0x0E#8).extractLsb' 2 4 = (0x10#8).extractLsb' 2 4)
      ∧ ¬((0x0E#8).getLsbD 0 = (0x0D#8).getLsbD 0 ∧ (0x0E#8).extractLsb' 2 4 = (0x0D#8).extractLsb' 2 4)
      ∧ fresh.q = .unknown ∧ (fresh.bus &&& 0x3F).getLsbD 1 = false
      ∧ (holding 0x0E 0x0C).q = .ofByte 0x0C ∧ (0x0C#8).getLsbD 1 = false ∧ (0x0E#8).getLsbD 1 = true
      ∧ ({ fresh with bus := 0x02 } : State).q = .unknown ∧ (0x02#8).getLsbD 1 = true := by
  decide
theorem witness_WriteNibbleResult : fresh.cfg.configured = true := rfl
theorem witness_NibbleIsMaskedAndPlaced : (holding 0x02 0).cfg.configured = true := rfl
theorem witness_WriteCommandResult : (holding 0x30 0x30).cfg.configured = true := rfl
theorem witness_WriteDataResult : (holding 0x30 0x30).cfg.configured = true := rfl
theorem witness_LcdByteIsSentUpperNibbleFirst :
    fresh.cfg.configured = true ∧ (Instr.writeCommand 0x28, false) ∈ [(Instr.writeCommand 0x28, false), (.writeData 0x28, true)]
      ∧ (Instr.writeData 0x28, true) ∈ [(Instr.writeCommand 0x28, false), (.writeData 0x28, true)] := by decide

/-- Both clauses of the wait: 0x01 and 0x02 on one side, 0x00 and 0x03 on the other. -/
theorem witness_LongWaitExactlyAfterClearAndHome :
    fresh.cfg.configured = true ∧ ((0x02 : Byte) = 0x01 ∨ (0x02 : Byte) = 0x02)
      ∧ ¬((0x03 : Byte) = 0x01 ∨ (0x03 : Byte) = 0x02) ∧ ¬((0x00 : Byte) = 0x01 ∨ (0x00 : Byte) = 0x02) := by decide
theorem witness_GotoPositionResult : fresh.cfg.configured = true ∧ (63 : Byte).toNat ≤ 63 := by decide

/-- The columns where the clauses meet, 63 and 64, and the last, 255, for both rows. -/
theorem witness_GotoSendsTheDdramAddress :
    fresh.cfg.configured = true ∧ (63 : Byte).toNat ≤ 63 ∧ 63 < (64 : Byte).toNat ∧ 63 < (255 : Byte).toNat
      ∧ isNext (exec (.gotoPosition 63 1) fresh) = true
      ∧ exec (.gotoPosition 64 1) fresh = .refused .columnOutOfRange
      ∧ exec (.gotoPosition 255 0) fresh = .refused .columnOutOfRange := by
  refine ⟨rfl, by decide, by decide, by decide, rfl, rfl, rfl⟩
theorem witness_LcdCommandRowsResult : fresh.cfg.configured = true := rfl
theorem witness_LoneNibbleRowsResult : fresh.cfg.configured = true := rfl
theorem witness_TraceIsOnlyAppendedTo :
    isNext (exec (.writeData 0x48) fresh) = true ∧ isNext (step (State.reset.withFetchWord 16 0x8000)) = true := ⟨rfl, rfl⟩
theorem witness_OutputsFollowTheCommittedBytes :
    isNext (exec .commit fresh) = true ∧ isNext (exec (.transfer 0xFF) fresh) = true := ⟨rfl, rfl⟩
theorem witness_NibbleWritersMakeWholeEnablePulses :
    writesNibbles .init = true ∧ isNext (exec .init State.reset) = true ∧ writesNibbles .ping8 = true
      ∧ isNext (exec .ping8 fresh) = true := ⟨rfl, rfl, rfl, rfl⟩
theorem witness_NibbleWritersLeaveTheImageOnTheOutputs :
    writesNibbles (.gotoPosition 63 1) = true ∧ isNext (exec (.gotoPosition 63 1) fresh) = true := ⟨rfl, rfl⟩
theorem witness_OnlySetSignalPartsBusFromOutputs :
    (∀ name v, Instr.transfer 0xFF ≠ .setSignal name v) ∧ isNext (exec (.transfer 0xFF) (holding 0x30 0x30)) = true
      ∧ (holding 0x30 0x30).q = .ofByte (holding 0x30 0x30).bus := ⟨by simp, rfl, rfl⟩
theorem witness_NoDrawWhileOutputsHaveEnableLow :
    OutputsEnableLow (holding 0x0C 0x0C) ∧ isNext (exec .commit (holding 0x0C 0x0C)) = true
      ∧ (holding 0x0C 0x0C).bus.getLsbD 1 = false := ⟨⟨0x0C, rfl, rfl⟩, rfl, rfl⟩
theorem witness_OnlyInitSetsLcdReady :
    isNext (exec .init State.reset) = true ∧ isNext (exec .configure State.reset) = true := ⟨rfl, rfl⟩
theorem witness_OnlyConfigureAndInitConfigure :
    isNext (exec .configure State.reset) = true ∧ isNext (exec (.setSignal .e true) State.reset) = true := ⟨rfl, rfl⟩
theorem witness_WriteStringDeliversTheCharacters :
    (holding 0x30 0x30).cfg.configured = true ∧ OutputsEnableLow (holding 0x30 0x30) := ⟨rfl, 0x30, rfl, rfl⟩
/-- The state after INIT: configured, enable low, its commands seen, and operands at their last values. -/
theorem witness_BytesSeenFollowTheOperations :
    (ran .init (holding 0 0)).cfg.configured = true ∧ (ran .init (holding 0 0)).q = .ofByte 0x30
      ∧ (0x30#8).getLsbD 1 = false
      ∧ lcdBytesSeen (ran .init (holding 0 0)).trace = some (initBytesSeen .A)
      ∧ (63 : Byte).toNat ≤ 63 ∧ writesNibbles .commit = false
      ∧ isNext (exec .commit (ran .init (holding 0 0))) = true := by decide +kernel

/-- A state past reset that meets the invariants: nothing committed yet, and the step of a CONFIGURE from reset. -/
theorem witness_StepKeepsTheInvariant :
    Inv (State.reset.withFetchWord 16 0x0000) ∧ isNext (step (State.reset.withFetchWord 16 0x0000)) = true :=
  ⟨{ bus_spare_zero := by decide
     lines_idle := by decide
     lines_driven := by decide
     unconfigured := fun _ => ⟨rfl, rfl, rfl, rfl, rfl, rfl, rfl⟩
     q_last_out := rfl
     outs_bus8 := by intro c hc; cases hc
     ip_in_stream := by decide }, rfl⟩

/-- A state after CONFIGURE in which the invariants hold with their configured clauses. -/
theorem witness_StepKeepsTheInvariant_configured : Inv { fresh with trace := [.cfg] } :=
  { bus_spare_zero := by decide
    lines_idle := fun _ => ⟨rfl, rfl⟩
    lines_driven := fun _ => ⟨rfl, rfl, rfl⟩
    unconfigured := by intro h; cases h
    q_last_out := rfl
    outs_bus8 := by intro c hc; cases hc
    ip_in_stream := by decide }

/-- A state other than the start is reachable. -/
theorem witness_ReachableStatesMeetTheInvariant :
    Reachable { ran .configure { State.reset with ops := [.call .configure], initVariant := .B } with ip := 1 } :=
  .step (.start [.call .configure] .B) rfl

end Sys2Proof.Tests
end

/-!
The state family (spec/10_state.md): what an operation that completes leaves in each piece of state, and the invariants
of R24. The operations are taken in five kinds (`Effect`), because every commit leaves the same state but for its events.
-/

namespace Sys2Proof.Proofs

open Sys2Proof.Machine Sys2Proof.Safety

/-! ### What the shared operations leave in each piece of state -/

section Fields

variable (s : State) (b first last : Byte) (ev : List Event)

@[simp] theorem committed_bus : (committed s first last ev).bus = last := rfl
@[simp] theorem committed_sr : (committed s first last ev).sr = .ofByte last := rfl
@[simp] theorem committed_q : (committed s first last ev).q = .ofByte last := rfl
@[simp] theorem committed_pins : (committed s first last ev).pins = idlePins s.pins := rfl
@[simp] theorem committed_cfg : (committed s first last ev).cfg = s.cfg := rfl
@[simp] theorem committed_done : (committed s first last ev).done = true := rfl
@[simp] theorem committed_ip : (committed s first last ev).ip = s.ip := rfl
@[simp] theorem committed_lcdReady : (committed s first last ev).lcdReady = s.lcdReady := rfl
@[simp] theorem committed_trace : (committed s first last ev).trace = s.trace ++ ev := rfl
@[simp] theorem committed_ops : (committed s first last ev).ops = s.ops := rfl

@[simp] theorem configureBody_bus : (configureBody s).bus = s.bus := rfl
@[simp] theorem configureBody_q : (configureBody s).q = s.q := rfl
@[simp] theorem configureBody_configured : (configureBody s).cfg.configured = true := rfl
@[simp] theorem configureBody_ip : (configureBody s).ip = s.ip := rfl
@[simp] theorem configureBody_lcdReady : (configureBody s).lcdReady = s.lcdReady := rfl
@[simp] theorem configureBody_trace : (configureBody s).trace = s.trace ++ [.cfg] := rfl
@[simp] theorem configureBody_ops : (configureBody s).ops = s.ops := rfl

@[simp] theorem transferBody_bus : (transferBody b s).bus = s.bus := by rw [transferBody_eq]
@[simp] theorem transferBody_q : (transferBody b s).q = s.q := by rw [transferBody_eq]
@[simp] theorem transferBody_cfg : (transferBody b s).cfg = s.cfg := by rw [transferBody_eq]
@[simp] theorem transferBody_ip : (transferBody b s).ip = s.ip := by rw [transferBody_eq]
@[simp] theorem transferBody_lcdReady : (transferBody b s).lcdReady = s.lcdReady := by rw [transferBody_eq]
@[simp] theorem transferBody_trace : (transferBody b s).trace = s.trace ++ (bitEvents b ++ [.shift b]) := by
  rw [transferBody_eq]
@[simp] theorem transferBody_ops : (transferBody b s).ops = s.ops := by rw [transferBody_eq]

/-- The image INIT leaves: that of its last command's lower nibble (R112). -/
def initImage (v : InitVariant) : Byte := bus8 false false ((lastInitCommand v).extractLsb' 0 4)

@[simp] theorem initBody_bus : (initBody s).bus = initImage s.initVariant := by rw [initBody_eq]; rfl
@[simp] theorem initBody_sr : (initBody s).sr = .ofByte (initImage s.initVariant) := by rw [initBody_eq]; rfl
@[simp] theorem initBody_q : (initBody s).q = .ofByte (initImage s.initVariant) := by rw [initBody_eq]; rfl
@[simp] theorem initBody_configured : (initBody s).cfg.configured = true := by rw [initBody_eq]; rfl
@[simp] theorem initBody_done : (initBody s).done = true := by rw [initBody_eq]; rfl
@[simp] theorem initBody_ip : (initBody s).ip = s.ip := by rw [initBody_eq]; rfl
@[simp] theorem initBody_lcdReady : (initBody s).lcdReady = true := by rw [initBody_eq]
@[simp] theorem initBody_trace :
    (initBody s).trace = s.trace ++ initEvents s.initVariant (firstSink s (bus8 false false 0x3)) := by rw [initBody_eq]
@[simp] theorem initBody_ops : (initBody s).ops = s.ops := by rw [initBody_eq]; rfl

end Fields

/-! ### Published bytes -/

/-- The events publish a byte or more, each a BUS8 byte with the spare bits zero, the last of them `last` (R40, R85). -/
structure Publishes (ev : List Event) (last : Byte) : Prop where
  last_out : (outs ev).getLast? = some (.ofByte last)
  outs_bus8 : ∀ c ∈ outs ev, IsBus8 c

theorem Publishes.last_lt {ev : List Event} {last : Byte} (h : Publishes ev last) : last.toNat < 64 := by
  obtain ⟨v, hv, hlast⟩ := h.outs_bus8 _ (List.mem_of_getLast? h.last_out)
  rwa [stage_ofByte_inj hlast]

/-- Events that publish end the history of the outputs with their last byte, whatever the trace before them. -/
theorem Publishes.getLast?_outs_append {ev : List Event} {last : Byte} (h : Publishes ev last) (tr : List Event) :
    (outs (tr ++ ev)).getLast? = some (.ofByte last) := by
  simp [List.getLast?_append, h.last_out]

/-- Events that publish keep the history of the outputs one of BUS8 bytes. -/
theorem Publishes.outs_append_bus8 {tr ev : List Event} {last : Byte} (h : Publishes ev last)
    (htr : ∀ c ∈ outs tr, IsBus8 c) : ∀ c ∈ outs (tr ++ ev), IsBus8 c := by
  intro c hc
  rw [outs_append, List.mem_append] at hc
  exact hc.elim (htr c) (h.outs_bus8 c)

theorem maskBus_lt (b : Byte) : (maskBus b).toNat < 64 := by
  rw [maskBus, BitVec.toNat_and]
  exact Nat.lt_succ_of_le Nat.and_le_right

theorem isBus8_of_mem_pulses {ps : List (Bool × Nibble)} {c : Stage} (h : c ∈ pulses ps) : IsBus8 c := by
  obtain ⟨⟨rs, n⟩, -, hc⟩ := List.mem_flatMap.mp h
  simp only [nibbleOuts, List.mem_cons, List.not_mem_nil, or_false] at hc
  obtain rfl | rfl | rfl := hc <;> exact ⟨_, bus8_lt _ _ _, rfl⟩

/-- Nibble writes publish, and their last byte is the last nibble's image with enable low. -/
theorem publishes_of_outs_pulses {ev : List Event} {ps : List (Bool × Nibble)} {rs : Bool} {n : Nibble}
    (h : outs ev = pulses ps ++ nibbleOuts rs n) : Publishes ev (bus8 rs false n) where
  last_out := by rw [h, List.getLast?_append]; rfl
  outs_bus8 c hc := isBus8_of_mem_pulses (ps := ps ++ [(rs, n)]) (by simpa [h, pulses] using hc)

theorem publishes_latchFall_append {s : State} {ev : List Event} {last : Byte} (h : Publishes ev last) :
    Publishes (latchFall s ++ ev) last := by
  obtain ⟨hlast, hbus8⟩ := h
  exact ⟨by simpa using hlast, by simpa using hbus8⟩

theorem publishes_commitEvents {v : Byte} {sink : List Event} (hv : v.toNat < 64) (h : outs sink = []) :
    Publishes (commitEvents v sink) v where
  last_out := by rw [outs_commitEvents, h]; rfl
  outs_bus8 c hc := by
    rw [outs_commitEvents, h, List.mem_singleton] at hc
    exact ⟨v, hv, hc⟩

/-- The nibble writes of a command byte, upper first (R53, R91). -/
def commandNibbles (c : Byte) : List (Bool × Nibble) := [(false, c.extractLsb' 4 4), (false, c.extractLsb' 0 4)]

/-- A list of command bytes publishes the nibble writes of each, in order. -/
theorem outs_commands (cs : List Byte) :
    outs (cs.flatMap fun c => commandEvents c []) = pulses (cs.flatMap commandNibbles) := by
  induction cs with
  | nil => rfl
  | cons c cs ih =>
    rw [List.flatMap_cons, outs_append, ih, outs_commandEvents c [] rfl]
    simp [pulses, commandNibbles]

/-- What INIT publishes is a row of nibble writes, the last of them its last command's lower nibble (R96, R110, R111). -/
theorem outs_initEvents_eq_pulses (v : InitVariant) {sink : List Event} (h : outs sink = []) :
    ∃ ps, outs (initEvents v sink) = pulses ps ++ nibbleOuts false ((lastInitCommand v).extractLsb' 0 4) := by
  obtain ⟨cs, hcs⟩ := initCommands_split v
  refine ⟨[(false, 0x3), (false, 0x3), (false, 0x3), (false, 0x2)] ++ cs.flatMap commandNibbles
    ++ [(false, (lastInitCommand v).extractLsb' 4 4)], ?_⟩
  have start : outs [.cfg, .delay .power] = [] := rfl
  have wait (w : Wait) : outs [.delay w] = [] := rfl
  rw [initEvents, hcs, List.flatMap_append]
  simp only [outs_append, start, wait, outs_nibbleEvents _ _ _ h, outs_nibbleEvents _ _ [] rfl, outs_commands]
  simp [pulses, commandNibbles]

/-- INIT publishes nibble writes and ends on its image (R112). -/
theorem publishes_initEvents (v : InitVariant) {sink : List Event} (h : outs sink = []) :
    Publishes (initEvents v sink) (initImage v) := by
  obtain ⟨ps, hps⟩ := outs_initEvents_eq_pulses v h
  exact publishes_of_outs_pulses hps

/-! ### The five kinds of effect -/

/-- What an operation that completes does: CONFIGURE, SET_SIGNAL, TRANSFER and INIT each by itself, and every other
operation a row of commits on a configured block. -/
inductive Effect (s : State) : Instr → State → Prop where
  | configure : Effect s .configure (configureBody s)
  | setSignal {name : Signal} {i : Nat} (value : Bool) (h : signalIndex name = some i) :
      Effect s (.setSignal name value) (setBus (writeBit s.bus i value) s)
  | transfer (b : Byte) (hc : s.cfg.configured = true) : Effect s (.transfer b) (transferBody b s)
  | init : Effect s .init (initBody s)
  | commits {i : Instr} {first last : Byte} {ev : List Event} (hi : i = .commit ∨ writesNibbles i = true) (hn : i ≠ .init)
      (hc : s.cfg.configured = true) (hp : Publishes ev last) : Effect s i (committed s first last ev)

theorem effect_of_nibbles_written {i : Instr} {s t : State} (hw : writesNibbles i = true) (hn : i ≠ .init)
    (h : exec i s = .next t) : Effect s i t := by
  obtain ⟨hc, rs, n, n', ev, ps, rfl, hev⟩ := nibbles_written hw hn h
  exact .commits (.inr hw) hn hc (publishes_latchFall_append (publishes_of_outs_pulses hev))

theorem exec_effect {i : Instr} {s t : State} (h : exec i s = .next t) : Effect s i t := by
  cases exec_next h with
  | configure => exact .configure
  | setSignal value hname => exact .setSignal value hname
  | init => exact .init
  | transfer b hc => exact .transfer b hc
  | commit hc =>
    rw [commitBody_eq]
    exact .commits (.inl rfl) (by simp) hc
      (publishes_latchFall_append (publishes_commitEvents (maskBus_lt _) (outs_firstSink _ _)))
  | nibble _ _ _ _ hw hn => exact effect_of_nibbles_written hw hn h
  | data => exact effect_of_nibbles_written rfl (by simp) h
  | command _ _ _ hw hn => exact effect_of_nibbles_written hw hn h

/-- No operation writes IP or OPS; the step alone advances IP (R17). -/
theorem exec_keeps_stream {i : Instr} {s t : State} (h : exec i s = .next t) : t.ip = s.ip ∧ t.ops = s.ops := by
  cases exec_effect h <;> simp

theorem exec_appends_to_trace {i : Instr} {s t : State} (h : exec i s = .next t) : ∃ ev, t.trace = s.trace ++ ev := by
  cases exec_effect h with
  | configure => exact ⟨_, configureBody_trace s⟩
  | setSignal => exact ⟨[], (List.append_nil _).symm⟩
  | transfer b => exact ⟨_, transferBody_trace s b⟩
  | init => exact ⟨_, initBody_trace s⟩
  | commits => exact ⟨_, committed_trace ..⟩

/-- An operation that writes nibbles ends with a nibble's image, enable low, in BUS, SR and Q. -/
theorem exec_leaves_nibble_image {i : Instr} {s t : State} (hw : writesNibbles i = true) (h : exec i s = .next t) :
    ∃ rs n, t.bus = bus8 rs false n ∧ t.sr = .ofByte (bus8 rs false n) ∧ t.q = .ofByte (bus8 rs false n)
      ∧ t.done = true := by
  by_cases hn : i = .init
  · subst hn
    obtain rfl : initBody s = t := Host.Outcome.next.inj h
    exact ⟨_, _, initBody_bus s, initBody_sr s, initBody_q s, initBody_done s⟩
  · obtain ⟨-, rs, -, n, ev, -, rfl, -⟩ := nibbles_written hw hn h
    exact ⟨rs, n, rfl, rfl, rfl, rfl⟩

/-! ### The invariants, kept by each kind of effect -/

theorem signalIndex_lt {name : Signal} {i : Nat} (h : signalIndex name = some i) : i < 6 := by
  cases name <;> simp [signalIndex] at h <;> omega

/-- SET_SIGNAL cannot reach the spare bits: no name of MAP is at 6 or 7 (R11). -/
theorem writeBit_lt {x : Byte} {i : Nat} (hx : x.toNat < 64) (hi : i < 6) (value : Bool) :
    (writeBit x i value).toNat < 64 := by
  have kept : (x &&& ~~~(1#8 <<< i)).toNat < 2 ^ 6 := by
    rw [BitVec.toNat_and]
    exact Nat.lt_of_le_of_lt Nat.and_le_left hx
  have written : ((BitVec.ofBool value).setWidth 8 <<< i).toNat < 2 ^ 6 := by
    interval_cases i <;> cases value <;> decide
  rw [writeBit, BitVec.toNat_or]
  exact Nat.or_lt_two_pow kept written

theorem inv_setBus {s : State} {v : Byte} (hs : Inv s) (hv : v.toNat < 64) : Inv (setBus v s) :=
  { hs with bus_spare_zero := hv }

theorem inv_advanceIp {s : State} (hs : Inv s) (hip : s.ip < s.ops.length) : Inv (advanceIp s) :=
  { hs with ip_in_stream := hip }

theorem inv_configureBody {s : State} (hs : Inv s) : Inv (configureBody s) where
  bus_spare_zero := hs.bus_spare_zero
  lines_idle _ := ⟨rfl, rfl⟩
  lines_driven _ := ⟨rfl, rfl, rfl⟩
  unconfigured := nofun
  q_last_out := by simpa [outs] using hs.q_last_out
  outs_bus8 := by simpa [outs] using hs.outs_bus8
  ip_in_stream := hs.ip_in_stream

theorem inv_transferBody {s : State} (b : Byte) (hs : Inv s) (hc : s.cfg.configured = true) : Inv (transferBody b s) := by
  have silent : outs (bitEvents b ++ [.shift b]) = [] := rfl
  rw [transferBody_eq]
  exact
    { bus_spare_zero := hs.bus_spare_zero
      lines_idle := fun _ => ⟨(hs.lines_idle hc).1, rfl⟩
      lines_driven := hs.lines_driven
      unconfigured := fun h => Bool.noConfusion (hc.symm.trans h)
      q_last_out := by rw [outs_append, silent, List.append_nil]; exact hs.q_last_out
      outs_bus8 := by rw [outs_append, silent, List.append_nil]; exact hs.outs_bus8
      ip_in_stream := hs.ip_in_stream }

theorem inv_committed {s : State} {first last : Byte} {ev : List Event} (hs : Inv s) (hc : s.cfg.configured = true)
    (hp : Publishes ev last) : Inv (committed s first last ev) where
  bus_spare_zero := hp.last_lt
  lines_idle _ := ⟨rfl, rfl⟩
  lines_driven := hs.lines_driven
  unconfigured h := Bool.noConfusion (hc.symm.trans h)
  q_last_out := by rw [committed_trace, hp.getLast?_outs_append]; rfl
  outs_bus8 := hp.outs_append_bus8 hs.outs_bus8
  ip_in_stream := hs.ip_in_stream

theorem inv_initBody {s : State} (hs : Inv s) : Inv (initBody s) := by
  have hp : Publishes (initEvents s.initVariant (firstSink s (bus8 false false 0x3))) (initImage s.initVariant) :=
    publishes_initEvents _ (outs_firstSink _ _)
  rw [initBody_eq]
  exact
    { bus_spare_zero := hp.last_lt
      lines_idle := fun _ => ⟨rfl, rfl⟩
      lines_driven := fun _ => ⟨rfl, rfl, rfl⟩
      unconfigured := nofun
      q_last_out := by rw [hp.getLast?_outs_append]; rfl
      outs_bus8 := hp.outs_append_bus8 hs.outs_bus8
      ip_in_stream := hs.ip_in_stream }

theorem exec_keeps_inv {i : Instr} {s t : State} (hs : Inv s) (h : exec i s = .next t) : Inv t := by
  cases exec_effect h with
  | configure => exact inv_configureBody hs
  | setSignal value hname => exact inv_setBus hs (writeBit_lt hs.bus_spare_zero (signalIndex_lt hname) value)
  | transfer b hc => exact inv_transferBody b hs hc
  | init => exact inv_initBody hs
  | commits _ _ hc hp => exact inv_committed hs hc hp

theorem ip_lt_of_currentRequest {s : State} {r : Request} (h : currentRequest s = some r) : s.ip < s.ops.length :=
  (List.getElem?_eq_some_iff.mp h).1

theorem inv_start (ops : List Request) (v : InitVariant) : Inv { State.reset with ops := ops, initVariant := v } where
  bus_spare_zero := Nat.zero_lt_succ 63
  lines_idle := nofun
  lines_driven := nofun
  unconfigured _ := ⟨rfl, rfl, rfl, rfl, rfl, rfl, rfl⟩
  q_last_out := rfl
  outs_bus8 := nofun
  ip_in_stream := Nat.zero_le _

/-- A BUS8 byte has the spare bits at 0 (R51, R157). -/
theorem spare_low_of_isBus8 {c : Stage} (h : IsBus8 c) : c.b7 = .low ∧ c.b6 = .low := by
  obtain ⟨v, hv, rfl⟩ := h
  have h7 : v.getLsbD 7 = false := Nat.testBit_lt_two_pow (Nat.lt_trans hv (by decide))
  have h6 : v.getLsbD 6 = false := Nat.testBit_lt_two_pow hv
  simp only [Stage.ofByte, h7, h6]
  exact ⟨rfl, rfl⟩

/-- The spare outputs are not high: Q is unknown, or the last of the published bytes (R157). -/
theorem spare_outputs_not_high {s : State} (hs : Inv s) : s.q.b7 ≠ .high ∧ s.q.b6 ≠ .high := by
  rw [hs.q_last_out]
  cases hlast : (outs s.trace).getLast? with
  | none => exact ⟨nofun, nofun⟩
  | some c =>
    obtain ⟨h7, h6⟩ := spare_low_of_isBus8 (hs.outs_bus8 c (List.mem_of_getLast? hlast))
    simp [h7, h6]

/-- The step at a request that stands for an operation is that operation, then the advance of IP (R17). -/
theorem step_of_request {s : State} {r : Request} {i : Instr} (hr : currentRequest s = some r)
    (hi : requestInstr r = .ok i) : step s = finishOperation (exec i s) := by
  simp only [step, hr, hi]

/-! ### The obligations -/

/-- Settles O51, by the kinds of effect: each keeps the invariants, and IP advances only over a request of OPS. -/
theorem stepKeepsTheInvariant : Obligations.StepKeepsTheInvariant := by
  intro s t hs h
  obtain ⟨-, rfl⟩ | ⟨r, i, u, hr, -, hu, rfl⟩ := step_next h
  · exact hs
  · obtain ⟨hip, hops⟩ := exec_keeps_stream hu
    exact inv_advanceIp (exec_keeps_inv hs hu) (by rw [hip, hops]; exact ip_lt_of_currentRequest hr)

/-- Settles O40: every kind of effect appends its events, and the step adds none of its own. -/
theorem traceIsOnlyAppendedTo : Obligations.TraceIsOnlyAppendedTo := by
  refine ⟨fun _ _ _ => exec_appends_to_trace, fun s t h => ?_⟩
  obtain ⟨-, rfl⟩ | ⟨_, i, u, -, -, hu, rfl⟩ := step_next h
  · exact ⟨[], (List.append_nil _).symm⟩
  · obtain ⟨ev, hev⟩ := exec_appends_to_trace hu
    exact ⟨ev, hev⟩

/-- Settles O43: the last commit of a nibble write has enable low. -/
theorem nibbleWritersLeaveTheImageOnTheOutputs : Obligations.NibbleWritersLeaveTheImageOnTheOutputs := by
  intro i s t hw h
  obtain ⟨rs, n, hbus, hsr, hq, hdone⟩ := exec_leaves_nibble_image hw h
  rw [hbus]
  exact ⟨bus8_enable rs false n, hq, hsr, hdone⟩

/-- Settles O44: CONFIGURE and TRANSFER write neither BUS nor Q, and commits leave Q = BUS. -/
theorem onlySetSignalPartsBusFromOutputs : Obligations.OnlySetSignalPartsBusFromOutputs := by
  intro i s t hset h hq
  cases exec_effect h with
  | configure => simpa using hq
  | setSignal => exact absurd rfl (hset _ _)
  | transfer b => simpa using hq
  | init => simp
  | commits => simp

/-- Settles O46: every kind of effect but INIT leaves LCD_READY as it was. -/
theorem onlyInitSetsLcdReady : Obligations.OnlyInitSetsLcdReady := by
  intro i s t h
  cases exec_effect h with
  | configure => simp
  | setSignal => simp
  | transfer b => simp
  | init => simp
  | commits _ hn => simp [hn]

/-- Settles O47: commits, TRANSFER and SET_SIGNAL leave CFG as it was. -/
theorem onlyConfigureAndInitConfigure : Obligations.OnlyConfigureAndInitConfigure := by
  intro i s t h
  cases exec_effect h with
  | configure => simp
  | setSignal => simp
  | transfer b => simp
  | init => simp
  | commits hi hn =>
    have hconf : i ≠ .configure := by rintro rfl; simp [writesNibbles] at hi
    simp [hn, hconf]

/-- Settles O50: at reset nothing is configured and nothing is published. -/
theorem invariantHoldsAtReset : Obligations.InvariantHoldsAtReset :=
  ⟨inv_start [] .A, inv_start⟩

/-- Settles O52, by induction over the run: O50 at its start, O51 at each step. -/
theorem reachableStatesMeetTheInvariant : Obligations.ReachableStatesMeetTheInvariant := by
  intro s hs
  have inv : Inv s := by
    induction hs with
    | start ops v => exact inv_start ops v
    | step _ h ih => exact stepKeepsTheInvariant _ _ ih h
  exact ⟨inv, spare_outputs_not_high inv⟩

/-- Settles O1, clause by clause: the values of R23 are those of the reset state. -/
theorem resetStateValues : Obligations.ResetStateValues := by
  refine ⟨rfl, rfl, rfl, fun l => ?_, rfl, rfl, rfl, rfl, rfl, rfl⟩
  cases l <;> rfl

/-- Settles O7: the step hands the decoded operation's answer to `finishOperation`. -/
theorem stepRunsTheDecodedOperation : Obligations.StepRunsTheDecodedOperation := by
  intro s r i hr hi
  have instr : requestInstr r = .ok i := by
    obtain rfl | ⟨w, rfl, hw⟩ := hi
    · rfl
    · simp only [requestInstr, hw]
  rw [step_of_request hr instr]
  exact ⟨fun t ht => by rw [ht]; rfl, fun reason hreason => by rw [hreason]; rfl⟩

end Sys2Proof.Proofs

/-!
The memory family (spec/20_memory.md): the pieces of state no operation writes, the staging register SR, and the outputs
Q, which take the published bytes and nothing else.
-/

namespace Sys2Proof.Proofs

open Sys2Proof.Machine Sys2Proof.Safety

/-! ### The stream, the variant and the step -/

@[simp] theorem committed_initVariant (s : State) (first last : Byte) (ev : List Event) :
    (committed s first last ev).initVariant = s.initVariant := rfl
@[simp] theorem configureBody_initVariant (s : State) : (configureBody s).initVariant = s.initVariant := rfl
@[simp] theorem transferBody_initVariant (s : State) (b : Byte) : (transferBody b s).initVariant = s.initVariant := by
  rw [transferBody_eq]
@[simp] theorem initBody_initVariant (s : State) : (initBody s).initVariant = s.initVariant := by rw [initBody_eq]; rfl

theorem exec_keeps_initVariant {i : Instr} {s t : State} (h : exec i s = .next t) : t.initVariant = s.initVariant := by
  cases exec_effect h <;> simp

theorem ops_length_le_ip_of_currentRequest {s : State} (h : currentRequest s = none) : s.ops.length ≤ s.ip :=
  List.getElem?_eq_none_iff.mp h

/-- Settles O11: no kind of effect writes them, and the step advances IP exactly where it found a request. -/
theorem streamAndVariantNeverChange : Obligations.StreamAndVariantNeverChange := by
  refine ⟨fun i s t h => ?_, fun s t h => ?_⟩
  · obtain ⟨hip, hops⟩ := exec_keeps_stream h
    exact ⟨hops, exec_keeps_initVariant h, hip⟩
  · obtain ⟨hend, rfl⟩ | ⟨r, i, u, hr, -, hu, rfl⟩ := step_next h
    · exact ⟨rfl, rfl, (if_neg (Nat.not_lt.mpr (ops_length_le_ip_of_currentRequest hend))).symm⟩
    · obtain ⟨hip, hops⟩ := exec_keeps_stream hu
      have hvar : u.initVariant = s.initVariant := exec_keeps_initVariant hu
      rw [if_pos (ip_lt_of_currentRequest hr)]
      exact ⟨hops, hvar, congrArg (· + 1) hip⟩

/-! ### Operations of a configured block, by the body they run -/

/-- Once the block is configured the guard lets the body run (R124). -/
theorem ifConfigured_of_configured {s : State} (hc : s.cfg.configured = true) (body : State → State) :
    ifConfigured s body = .next (body s) :=
  ifConfigured_next.mpr ⟨hc, rfl⟩

theorem exec_transfer {s : State} (hc : s.cfg.configured = true) (b : Byte) :
    exec (.transfer b) s = .next (transferBody b s) :=
  ifConfigured_of_configured hc _

theorem exec_writeCommand {s : State} (hc : s.cfg.configured = true) (b : Byte) :
    exec (.writeCommand b) s = .next (writeCommandBody b s) :=
  ifConfigured_of_configured hc _

theorem exec_writeData {s : State} (hc : s.cfg.configured = true) (b : Byte) :
    exec (.writeData b) s = .next (writeByteBody b true s) :=
  ifConfigured_of_configured hc _

/-! ### A transfer and the staging register -/

/-- The bits a transfer's events clock out, bit 7 first (R32). -/
theorem bits_transferEvents (b : Byte) : bits (bitEvents b ++ [.shift b]) =
    [b.getLsbD 7, b.getLsbD 6, b.getLsbD 5, b.getLsbD 4, b.getLsbD 3, b.getLsbD 2, b.getLsbD 1, b.getLsbD 0] := rfl

/-- Eight shifts push the whole old content of SR out, and no event carries any of it (R44). -/
theorem transferBody_ignores_sr (s : State) (c : Stage) (b : Byte) :
    transferBody b { s with sr := c } = transferBody b s := by
  rw [transferBody_eq, transferBody_eq]

/-- Settles O17: the transfer appends its Bit events, bit 7 first, and Shift is no Bit event. -/
theorem transferSendsMostSignificantBitFirst : Obligations.TransferSendsMostSignificantBitFirst := by
  intro s b hc
  refine ⟨_, exec_transfer hc b, ?_⟩
  rw [transferBody_trace, bits_append, bits_transferEvents]

/-- Settles O18: the state after a transfer does not mention the old SR. -/
theorem oldStagingBitsAreLost : Obligations.OldStagingBitsAreLost := by
  intro s c b hc
  have hc' : ({ s with sr := c } : State).cfg.configured = true := hc
  rw [exec_transfer hc', exec_transfer hc, transferBody_ignores_sr]

/-! ### What an LCD byte publishes -/

theorem outs_writeByteBody (b : Byte) (rs : Bool) (s : State) :
    outs (writeByteBody b rs s).trace =
      outs s.trace ++ (nibbleOuts rs (b.extractLsb' 4 4) ++ nibbleOuts rs (b.extractLsb' 0 4)) := by
  rw [writeByteBody_eq, committed_trace, outs_append, outs_append, outs_latchFall, List.nil_append,
    outs_byteEvents _ _ _ (outs_firstSink _ _)]

/-- A command publishes what its byte does in command mode: T_LONG publishes nothing (R56). -/
theorem outs_writeCommandBody (b : Byte) (s : State) :
    outs (writeCommandBody b s).trace =
      outs s.trace ++ (nibbleOuts false (b.extractLsb' 4 4) ++ nibbleOuts false (b.extractLsb' 0 4)) := by
  rw [writeCommandBody_eq, committed_trace, outs_append, outs_append, outs_latchFall, List.nil_append,
    outs_commandEvents _ _ (outs_firstSink _ _)]

/-- Settles O31: both operations publish the upper nibble's write and then the lower's, each with its own RS. -/
theorem lcdByteIsSentUpperNibbleFirst : Obligations.LcdByteIsSentUpperNibbleFirst := by
  intro s b hc m hm
  simp only [List.mem_cons, List.not_mem_nil, or_false] at hm
  obtain rfl | rfl := hm
  · exact ⟨_, exec_writeCommand hc b, outs_writeCommandBody b s⟩
  · exact ⟨_, exec_writeData hc b, outs_writeByteBody b true s⟩

/-! ### The outputs follow the published bytes -/

/-- From `s` to `t` some BUS8 bytes were published, and Q holds the last of them, or what it held where none was
(R36, R40 item 2, R85). -/
def OutputsFollow (s t : State) : Prop :=
  ∃ qs, outs t.trace = outs s.trace ++ qs ∧ (∀ c ∈ qs, IsBus8 c) ∧ t.q = qs.getLast?.getD s.q

/-- What publishes nothing and leaves Q alone keeps the outputs where they were. -/
theorem outputsFollow_of_silent {s t : State} {ev : List Event} (htr : t.trace = s.trace ++ ev) (silent : outs ev = [])
    (hq : t.q = s.q) : OutputsFollow s t :=
  ⟨[], by rw [htr, outs_append, silent], nofun, hq⟩

/-- What publishes and leaves its last byte in Q moves the outputs through the bytes published. -/
theorem outputsFollow_of_publishes {s t : State} {ev : List Event} {last : Byte} (htr : t.trace = s.trace ++ ev)
    (hp : Publishes ev last) (hq : t.q = .ofByte last) : OutputsFollow s t :=
  ⟨outs ev, by rw [htr, outs_append], hp.outs_bus8, by rw [hq, hp.last_out]; rfl⟩

/-- Settles O41, by the kinds of effect: CONFIGURE, SET_SIGNAL and TRANSFER are silent, INIT and commits publish. -/
theorem outputsFollowTheCommittedBytes : Obligations.OutputsFollowTheCommittedBytes := by
  intro i s t h
  cases exec_effect h with
  | configure => exact outputsFollow_of_silent (configureBody_trace s) rfl rfl
  | setSignal => exact outputsFollow_of_silent (List.append_nil _).symm rfl rfl
  | transfer b => exact outputsFollow_of_silent (transferBody_trace s b) rfl (transferBody_q s b)
  | init =>
    exact outputsFollow_of_publishes (initBody_trace s) (publishes_initEvents _ (outs_firstSink _ _)) (initBody_q s)
  | commits _ _ _ hp => exact outputsFollow_of_publishes (committed_trace ..) hp rfl

end Sys2Proof.Proofs

/-!
The encoding family (spec/30_encoding.md): which request words decode and to what, the operations that stand for a command
byte or a lone nibble, and the byte a commit publishes. The decoder is described once, by the rows of the opcode table
(`ReqRow`, `decodeReq16_ok_iff`); the statements about request words are about rows.
-/

namespace Sys2Proof.Proofs

open Sys2Proof.Machine Sys2Proof.Safety Sys2Proof.Laws

/-! ### Words cut into fields -/

theorem exists_append {n m : Nat} (w : BitVec (n + m)) : ∃ (high : BitVec n) (low : BitVec m), w = high ++ low :=
  ⟨_, _, BitVec.extractLsb'_append_extractLsb'.symm⟩

theorem append_eq_append_iff {n m : Nat} {a c : BitVec n} {b d : BitVec m} : a ++ b = c ++ d ↔ a = c ∧ b = d := by
  constructor
  · intro h
    have high := congrArg (BitVec.extractLsb' m n) h
    have low := congrArg (BitVec.extractLsb' 0 m) h
    rw [BitVec.extractLsb'_append_eq_left, BitVec.extractLsb'_append_eq_left] at high
    rw [BitVec.extractLsb'_append_eq_right, BitVec.extractLsb'_append_eq_right] at low
    exact ⟨high, low⟩
  · rintro ⟨rfl, rfl⟩; rfl

/-- A word whose upper bits are `fixed` and whose bits under `zero` are zero, read off its row's mask. -/
theorem eq_append_of_fits {n m : Nat} {w : BitVec (n + m)} (fixed : BitVec n) (zero : BitVec m)
    (h : w &&& (BitVec.allOnes n ++ zero) = fixed ++ 0#m) : ∃ low, w = fixed ++ low ∧ low &&& zero = 0#m := by
  obtain ⟨high, low, rfl⟩ := exists_append w
  rw [BitVec.and_append, BitVec.and_allOnes, append_eq_append_iff] at h
  obtain ⟨rfl, hzero⟩ := h
  exact ⟨low, rfl, hzero⟩

theorem setWidth_extractLsb'_of_lt {n m : Nat} {x : BitVec m} (h : x.toNat < 2 ^ n) :
    (x.extractLsb' 0 n).setWidth m = x := by
  apply BitVec.eq_of_toNat_eq
  simp [Nat.mod_eq_of_lt h]

/-! ### The rows of the request words -/

/-- A word fits a row exactly where its selector is the row's and its must-be-zero bits are zero (R57). -/
theorem fits_row_iff (w : BitVec 16) (k : BitVec 4) (mbz : BitVec 12) :
    w &&& (0xF#4 ++ mbz) = k ++ 0#12 ↔ (w.extractLsb' 12 4).toNat = k.toNat ∧ w &&& (0#4 ++ mbz) = 0 := by
  obtain ⟨sel, body, rfl⟩ := exists_append (n := 4) (m := 12) w
  have full : sel &&& 0xF#4 = sel := BitVec.and_allOnes
  have zero : (0 : BitVec 16) = 0#4 ++ 0#12 := rfl
  rw [BitVec.and_append, BitVec.and_append, full, zero, append_eq_append_iff, append_eq_append_iff, BitVec.toNat_inj,
    BitVec.extractLsb'_append_eq_left]
  simp

/-- `w` fits the REQ16 row of `i`, by the mask and match of the opcode table, and its fields are the operands of `i`
(R57). -/
inductive ReqRow (w : BitVec 16) : Instr → Prop where
  | configure (fits : w &&& 0xFFFF = 0x0000) : ReqRow w .configure
  | transfer (fits : w &&& 0xFF00 = 0x1000) : ReqRow w (.transfer (w.extractLsb' 0 8))
  | setSignal (fits : w &&& 0xFFE8 = 0x2000) : ReqRow w (.setSignal (signalOf (w.extractLsb' 0 3)) (w.getLsbD 4))
  | commit (fits : w &&& 0xFFFF = 0x3000) : ReqRow w .commit
  | writeNibble (fits : w &&& 0xFFE0 = 0x4000) :
      ReqRow w (.writeNibble ((w.extractLsb' 0 4).setWidth 8) (w.getLsbD 4))
  | writeCommand (fits : w &&& 0xFF00 = 0x5000) : ReqRow w (.writeCommand (w.extractLsb' 0 8))
  | writeData (fits : w &&& 0xFF00 = 0x6000) : ReqRow w (.writeData (w.extractLsb' 0 8))
  | gotoPosition (fits : w &&& 0xFE00 = 0x7000) :
      ReqRow w (.gotoPosition (w.extractLsb' 0 8) (w.extractLsb' 8 1).toNat)
  | init (fits : w &&& 0xFFFF = 0x8000) : ReqRow w .init

theorem reqRow_of_decodeReq16 {w : BitVec 16} {i : Instr} (h : decodeReq16 w = .ok i) : ReqRow w i := by
  unfold decodeReq16 at h
  split at h
  case h_10 => cases h
  all_goals
    rename_i sel
    obtain ⟨mbz, rfl⟩ := unlessSet_ok.mp h
  · exact .configure ((fits_row_iff w 0 0xFFF).mpr ⟨sel, mbz⟩)
  · exact .transfer ((fits_row_iff w 1 0xF00).mpr ⟨sel, mbz⟩)
  · exact .setSignal ((fits_row_iff w 2 0xFE8).mpr ⟨sel, mbz⟩)
  · exact .commit ((fits_row_iff w 3 0xFFF).mpr ⟨sel, mbz⟩)
  · exact .writeNibble ((fits_row_iff w 4 0xFE0).mpr ⟨sel, mbz⟩)
  · exact .writeCommand ((fits_row_iff w 5 0xF00).mpr ⟨sel, mbz⟩)
  · exact .writeData ((fits_row_iff w 6 0xF00).mpr ⟨sel, mbz⟩)
  · exact .gotoPosition ((fits_row_iff w 7 0xE00).mpr ⟨sel, mbz⟩)
  · exact .init ((fits_row_iff w 8 0xFFF).mpr ⟨sel, mbz⟩)

/-- A word that fits a row selects the row's arm of the decoder and passes its check. -/
theorem selected_of_fits {w : BitVec 16} (k : BitVec 4) (mbz : BitVec 12) (i : Instr)
    (fits : w &&& (0xF#4 ++ mbz) = k ++ 0#12) :
    (w.extractLsb' 12 4).toNat = k.toNat ∧ unlessSet w (0#4 ++ mbz) i = .ok i := by
  obtain ⟨sel, zero⟩ := (fits_row_iff w k mbz).mp fits
  exact ⟨sel, unlessSet_ok.mpr ⟨zero, rfl⟩⟩

theorem decodeReq16_of_reqRow {w : BitVec 16} {i : Instr} (h : ReqRow w i) : decodeReq16 w = .ok i := by
  unfold decodeReq16
  cases h with
  | configure fits => obtain ⟨sel, ok⟩ := selected_of_fits 0 0xFFF _ fits; rw [sel]; exact ok
  | transfer fits => obtain ⟨sel, ok⟩ := selected_of_fits 1 0xF00 _ fits; rw [sel]; exact ok
  | setSignal fits => obtain ⟨sel, ok⟩ := selected_of_fits 2 0xFE8 _ fits; rw [sel]; exact ok
  | commit fits => obtain ⟨sel, ok⟩ := selected_of_fits 3 0xFFF _ fits; rw [sel]; exact ok
  | writeNibble fits => obtain ⟨sel, ok⟩ := selected_of_fits 4 0xFE0 _ fits; rw [sel]; exact ok
  | writeCommand fits => obtain ⟨sel, ok⟩ := selected_of_fits 5 0xF00 _ fits; rw [sel]; exact ok
  | writeData fits => obtain ⟨sel, ok⟩ := selected_of_fits 6 0xF00 _ fits; rw [sel]; exact ok
  | gotoPosition fits => obtain ⟨sel, ok⟩ := selected_of_fits 7 0xE00 _ fits; rw [sel]; exact ok
  | init fits => obtain ⟨sel, ok⟩ := selected_of_fits 8 0xFFF _ fits; rw [sel]; exact ok

/-- The decoder answers an operation exactly where a row gives it. -/
theorem decodeReq16_ok_iff {w : BitVec 16} {i : Instr} : decodeReq16 w = .ok i ↔ ReqRow w i :=
  ⟨reqRow_of_decodeReq16, decodeReq16_of_reqRow⟩

theorem ReqRow.exists_row {w : BitVec 16} {i : Instr} (h : ReqRow w i) : ∃ row ∈ req16Rows, w &&& row.1 = row.2 := by
  cases h with
  | _ fits => exact ⟨(_, _), by simp [req16Rows], fits⟩

theorem exists_reqRow {w : BitVec 16} {row : BitVec 16 × BitVec 16} (hrow : row ∈ req16Rows)
    (fits : w &&& row.1 = row.2) : ∃ i, ReqRow w i := by
  simp only [req16Rows, List.mem_cons, List.not_mem_nil, or_false] at hrow
  obtain rfl | rfl | rfl | rfl | rfl | rfl | rfl | rfl | rfl := hrow
  exacts [⟨_, .configure fits⟩, ⟨_, .transfer fits⟩, ⟨_, .setSignal fits⟩, ⟨_, .commit fits⟩, ⟨_, .writeNibble fits⟩,
    ⟨_, .writeCommand fits⟩, ⟨_, .writeData fits⟩, ⟨_, .gotoPosition fits⟩, ⟨_, .init fits⟩]

/-! ### The fields of the words the encoder writes -/

theorem setSignalWord_fields (name : Signal) (value : Bool) :
    (0x100#11 ++ (BitVec.ofBool value ++ (0#1 ++ signalField name))).extractLsb' 0 3 = signalField name
      ∧ (0x100#11 ++ (BitVec.ofBool value ++ (0#1 ++ signalField name))).getLsbD 4 = value := by
  cases name <;> cases value <;> exact ⟨rfl, rfl⟩

theorem writeNibbleWord_fields (n : Nibble) (rs : Bool) :
    (0x200#11 ++ (BitVec.ofBool rs ++ n)).extractLsb' 0 4 = n
      ∧ (0x200#11 ++ (BitVec.ofBool rs ++ n)).getLsbD 4 = rs := by
  constructor
  · rw [BitVec.extractLsb'_append_eq_of_add_le (by decide), BitVec.extractLsb'_append_eq_right]
  · rw [BitVec.getLsbD_append, BitVec.getLsbD_append]; simp

theorem gotoPositionWord_fields (column : Byte) (row : BitVec 1) :
    (0x38#7 ++ (row ++ column)).extractLsb' 0 8 = column ∧ (0x38#7 ++ (row ++ column)).extractLsb' 8 1 = row := by
  constructor
  · rw [BitVec.extractLsb'_append_eq_of_add_le (by decide), BitVec.extractLsb'_append_eq_right]
  · rw [BitVec.extractLsb'_append_eq_of_add_le (by decide), BitVec.extractLsb'_append_eq_left]

/-! ### Encode and decode -/

/-- A row's mask and match given as numbers, as `TableRow` gives them, read as bits. -/
theorem fits_of_number {w : BitVec 16} {mask fixed : Nat} (h : w.toNat &&& mask = fixed) (hm : mask < 2 ^ 16) :
    w &&& BitVec.ofNat 16 mask = BitVec.ofNat 16 fixed := by
  apply BitVec.eq_of_toNat_eq
  have hf : fixed < 2 ^ 16 := h ▸ Nat.lt_of_le_of_lt Nat.and_le_right hm
  rw [BitVec.toNat_and, BitVec.toNat_ofNat, BitVec.toNat_ofNat, Nat.mod_eq_of_lt hm, Nat.mod_eq_of_lt hf, h]

/-- The request word of a well-formed operation fits the operation's row (R57). -/
theorem reqRow_of_encode {w : BitVec 16} {i : Instr} (hi : i.wellFormed = true) (h : encode i = .req16 w) :
    ReqRow w i := by
  cases i <;> cases h
  case configure => exact .configure rfl
  case commit => exact .commit rfl
  case init => exact .init rfl
  case transfer b =>
    have fits := ReqRow.transfer (fits_of_number (TableRow.transfer b rfl) (by decide))
    rwa [BitVec.extractLsb'_append_eq_right] at fits
  case writeCommand b =>
    have fits := ReqRow.writeCommand (fits_of_number (TableRow.writeCommand b rfl) (by decide))
    rwa [BitVec.extractLsb'_append_eq_right] at fits
  case writeData b =>
    have fits := ReqRow.writeData (fits_of_number (TableRow.writeData b rfl) (by decide))
    rwa [BitVec.extractLsb'_append_eq_right] at fits
  case setSignal name value =>
    have fits := ReqRow.setSignal (fits_of_number (TableRow.setSignal name value rfl) (by decide))
    obtain ⟨field, flag⟩ := setSignalWord_fields name value
    rwa [field, flag, signalOf_signalField] at fits
  case writeNibble value rs =>
    have fits := ReqRow.writeNibble (fits_of_number (TableRow.writeNibble value rs hi) (by decide))
    obtain ⟨field, flag⟩ := writeNibbleWord_fields (value.extractLsb' 0 4) rs
    rwa [field, flag, setWidth_extractLsb'_of_lt (n := 4) (of_decide_eq_true hi)] at fits
  case gotoPosition column row =>
    have fits := ReqRow.gotoPosition (fits_of_number (TableRow.gotoPosition column row hi) (by decide))
    obtain ⟨field, bit⟩ := gotoPositionWord_fields column (BitVec.ofNat 1 row)
    rwa [field, bit, BitVec.toNat_ofNat, Nat.mod_eq_of_lt (of_decide_eq_true hi)] at fits

/-- A word that fits a row is the word of the operation the row gives it (R57). -/
theorem encode_of_reqRow {w : BitVec 16} {i : Instr} (h : ReqRow w i) : i.wellFormed = true ∧ encode i = .req16 w := by
  have whole : w = w &&& 0xFFFF := BitVec.and_allOnes.symm
  cases h with
  | configure fits => rw [whole, fits]; exact ⟨rfl, rfl⟩
  | commit fits => rw [whole, fits]; exact ⟨rfl, rfl⟩
  | init fits => rw [whole, fits]; exact ⟨rfl, rfl⟩
  | transfer fits =>
    obtain ⟨b, rfl, -⟩ := eq_append_of_fits 0x10#8 0#8 fits
    rw [BitVec.extractLsb'_append_eq_right]; exact ⟨rfl, rfl⟩
  | writeCommand fits =>
    obtain ⟨b, rfl, -⟩ := eq_append_of_fits 0x50#8 0#8 fits
    rw [BitVec.extractLsb'_append_eq_right]; exact ⟨rfl, rfl⟩
  | writeData fits =>
    obtain ⟨b, rfl, -⟩ := eq_append_of_fits 0x60#8 0#8 fits
    rw [BitVec.extractLsb'_append_eq_right]; exact ⟨rfl, rfl⟩
  | setSignal fits =>
    obtain ⟨low, rfl, spare⟩ := eq_append_of_fits 0x100#11 8#5 fits
    clear whole fits
    revert low; decide
  | writeNibble fits =>
    obtain ⟨low, rfl, -⟩ := eq_append_of_fits 0x200#11 0#5 fits
    clear whole fits
    revert low; decide
  | gotoPosition fits =>
    obtain ⟨low, rfl, -⟩ := eq_append_of_fits 0x38#7 0#9 fits
    obtain ⟨row, column, rfl⟩ := exists_append (n := 1) (m := 8) low
    obtain ⟨field, bit⟩ := gotoPositionWord_fields column row
    rw [field, bit]
    exact ⟨decide_eq_true row.isLt, by rw [encode, BitVec.ofNat_toNat, BitVec.setWidth_eq]⟩

/-- Settles O3: the word of each of the nine operations fits its row, and each other row is its own word. -/
theorem decodeOfEncodeIsTheOperation : Obligations.DecodeOfEncodeIsTheOperation := by
  intro i hi
  cases i with
  | lcdSetDdramRow0 offset => revert offset; decide
  | lcdSetDdramRow1 offset => revert offset; decide
  | lcdClearDisplay | lcdReturnHome | lcdEntryModeInc | lcdDisplayOff | lcdDisplayOn | lcdFunctionSet4Bit => rfl
  | ping8 | switch4 => rfl
  | _ => exact decodeReq16_ok_iff.mpr (reqRow_of_encode hi rfl)

/-- Settles O4: a word that decodes fits a row, which says all its bits. -/
theorem encodeOfDecodedRequestIsTheWord : Obligations.EncodeOfDecodedRequestIsTheWord :=
  fun _ _ h => encode_of_reqRow (decodeReq16_ok_iff.mp h)

/-- Settles O5: the decoder answers an operation exactly where a row gives it. -/
theorem requestDecodesIffARowMatches : Obligations.RequestDecodesIffARowMatches := by
  intro w
  constructor
  · rintro ⟨i, h⟩
    exact (decodeReq16_ok_iff.mp h).exists_row
  · rintro ⟨row, hrow, fits⟩
    obtain ⟨i, h⟩ := exists_reqRow hrow fits
    exact ⟨i, decodeReq16_ok_iff.mpr h⟩

/-- Settles O2, word by word, each by running the decoder. -/
theorem decodeVectorsOfTheSpec : Obligations.DecodeVectorsOfTheSpec :=
  ⟨rfl, rfl, rfl, rfl, rfl, rfl, rfl, rfl, rfl, rfl, rfl, rfl, rfl, rfl, rfl, rfl, rfl, rfl, rfl⟩

/-! ### Command bytes and lone nibbles -/

theorem exec_lcdSetDdramRow0 (offset : BitVec 6) (s : State) :
    exec (.lcdSetDdramRow0 offset) s = exec (.writeCommand (0x80 + offset.setWidth 8)) s := rfl

theorem exec_lcdSetDdramRow1 (offset : BitVec 6) (s : State) :
    exec (.lcdSetDdramRow1 offset) s = exec (.writeCommand (0xC0 + offset.setWidth 8)) s := rfl

/-- The operation of a command byte does what WRITE_COMMAND of the byte does (R55, R59). -/
theorem exec_decodeLcd8 (b : Byte) (s : State) : exec (decodeLcd8 b) s = exec (.writeCommand b) s := by
  unfold decodeLcd8
  split_ifs with h01 h02 h06 h08 h0C h28 row0 row1
  · rw [h01]; rfl
  · rw [h02]; rfl
  · rw [h06]; rfl
  · rw [h08]; rfl
  · rw [h0C]; rfl
  · rw [h28]; rfl
  · rw [exec_lcdSetDdramRow0, ddramRow0_byte b row0]
  · rw [exec_lcdSetDdramRow1, ddramRow1_byte b row1]
  · rfl

/-- The operation of a lone nibble does what WRITE_NIBBLE of it in command mode does (R55, R62). -/
theorem exec_decodeNib4 (n : Nibble) (s : State) :
    exec (decodeNib4 n) s = exec (.writeNibble (n.setWidth 8) false) s := by
  unfold decodeNib4
  split_ifs with h3 h2
  · rw [h3]; rfl
  · rw [h2]; rfl
  · rfl

/-- Settles O6: each row of the decoder runs the body of the operation it stands for. -/
theorem lcdWordsMeanWriteCommandAndNibble : Obligations.LcdWordsMeanWriteCommandAndNibble :=
  ⟨fun b s => ⟨_, rfl, exec_decodeLcd8 b s⟩, fun n s => ⟨_, rfl, exec_decodeNib4 n s⟩⟩

theorem ifConfigured_writeNibbleBody {s : State} (hc : s.cfg.configured = true) (value : Byte) (rs : Bool) :
    ifConfigured s (writeNibbleBody value rs) = .next (afterNibble (lowNibble value) rs s) := by
  rw [ifConfigured_of_configured hc, writeNibbleBody_eq]; rfl

theorem ifConfigured_writeCommandBody {s : State} (hc : s.cfg.configured = true) (b : Byte) :
    ifConfigured s (writeCommandBody b) = .next (afterCommand b s) := by
  rw [ifConfigured_of_configured hc, writeCommandBody_eq]; rfl

/-- Settles O39: both rows are nibble writes in command mode. -/
theorem loneNibbleRowsResult : Obligations.LoneNibbleRowsResult :=
  fun _ hc => ⟨ifConfigured_writeNibbleBody hc pingNibble false, ifConfigured_writeNibbleBody hc switchNibble false⟩

/-- The base of row 0 and an offset do not carry (R54). -/
theorem row0_add_offset (o : BitVec 6) : 0x80 + o.setWidth 8 = 0b10#2 ++ o := by
  have h := ddramRow0_byte (0b10#2 ++ o) BitVec.extractLsb'_append_eq_left
  rwa [BitVec.extractLsb'_append_eq_right] at h

/-- The base of row 1 and an offset do not carry (R54). -/
theorem row1_add_offset (o : BitVec 6) : 0xC0 + o.setWidth 8 = 0b11#2 ++ o := by
  have h := ddramRow1_byte (0b11#2 ++ o) BitVec.extractLsb'_append_eq_left
  rwa [BitVec.extractLsb'_append_eq_right] at h

/-- Settles O38: each row sends its command byte, and a row's base plus an offset is the two side by side. -/
theorem lcdCommandRowsResult : Obligations.LcdCommandRowsResult := by
  intro s o hc
  have sends := ifConfigured_writeCommandBody hc
  rw [← row0_add_offset, ← row1_add_offset]
  exact ⟨sends 0x01, sends 0x02, sends 0x06, sends 0x08, sends 0x0C, sends 0x28, sends _, sends _⟩

/-! ### The command byte of GOTO_POSITION -/

theorem exec_gotoPosition {s : State} (hc : s.cfg.configured = true) (column : Byte) {row : Nat} {base : Byte}
    (hbase : rowBase row = some base) :
    exec (.gotoPosition column row) s =
      if 63 < column.toNat then .refused .columnOutOfRange else exec (.writeCommand (base + column)) s := by
  rw [exec_writeCommand hc, exec, execGotoPosition, if_pos hc, hbase]

/-- The byte 1, row, column of format DDR8 is the row's base plus the column, which does not carry (R54). -/
theorem ddr8_byte {column : Byte} {row : Nat} (hcol : column.toNat < 64) (hrow : row ≤ 1) :
    1#1 ++ (BitVec.ofNat 1 row ++ column.extractLsb' 0 6) = (if row = 0 then 0x80 else 0xC0) + column := by
  have offset : (column.extractLsb' 0 6).setWidth 8 = column := setWidth_extractLsb'_of_lt (n := 6) hcol
  generalize column.extractLsb' 0 6 = o at offset ⊢
  rw [← offset, BitVec.append_assoc', BitVec.cast_eq]
  obtain rfl | rfl : row = 0 ∨ row = 1 := by omega
  · exact (row0_add_offset o).symm
  · exact (row1_add_offset o).symm

/-- Settles O34: both rows have a base, and the column alone decides between the command byte and the refusal. -/
theorem gotoSendsTheDdramAddress : Obligations.GotoSendsTheDdramAddress := by
  intro s column row hc hrow
  have base : rowBase row = some (if row = 0 then 0x80 else 0xC0) := by interval_cases row <;> rfl
  rw [exec_gotoPosition hc column base]
  refine ⟨fun hcol => ?_, fun hcol => if_pos hcol⟩
  rw [if_neg (Nat.not_lt.mpr hcol), ddr8_byte (Nat.lt_succ_of_le hcol) hrow]
  exact ⟨rfl, rfl⟩

/-! ### The waits of a byte -/

theorem waits_writeByteBody (b : Byte) (rs : Bool) (s : State) :
    waits (writeByteBody b rs s).trace = waits s.trace ++
      [.latch, .addressSetup, .latch, .latch, .exec, .latch, .addressSetup, .latch, .latch, .exec] := by
  rw [writeByteBody_eq, committed_trace, waits_append, waits_append, waits_latchFall, List.nil_append, byteEvents,
    waits_append, waits_nibbleEvents _ _ _ (waits_firstSink _ _), waits_nibbleEvents _ _ _ rfl]
  rfl

/-- A command takes its byte's waits, and T_LONG where the whole byte is a long command (R56). -/
theorem waits_writeCommandBody (b : Byte) (s : State) :
    waits (writeCommandBody b s).trace =
      waits (writeByteBody b false s).trace ++ if b = 0x01 ∨ b = 0x02 then [.long] else [] := by
  simp only [writeCommandBody, isLongCommand_iff]
  split
  · rw [delay_trace, waits_append]; rfl
  · rw [List.append_nil]

/-- Settles O32: a byte takes the same waits in both modes, and only a command looks at its value. -/
theorem longWaitExactlyAfterClearAndHome : Obligations.LongWaitExactlyAfterClearAndHome := by
  intro s b hc
  refine ⟨_, _, exec_writeCommand hc b, exec_writeData hc b, waits_writeByteBody b true s, ?_⟩
  rw [waits_writeCommandBody, waits_writeByteBody, waits_writeByteBody]

/-! ### The byte committed -/

theorem bus8_registerSelect (rs e : Bool) (n : Nibble) : (bus8 rs e n).getLsbD 0 = rs := by
  revert rs e n; decide

theorem bus8_nibble (rs e : Bool) (n : Nibble) : (bus8 rs e n).extractLsb' 2 4 = n := by
  revert rs e n; decide

/-- Nibble bit `k` is on data line D(4+k) (R52). -/
theorem bus8_dataLine (rs e : Bool) (n : Nibble) {k : Nat} (hk : k < 4) :
    (bus8 rs e n).getLsbD (2 + k) = n.getLsbD k := by
  have h := congrArg (·.getLsbD k) (bus8_nibble rs e n)
  simpa [BitVec.getLsbD_extractLsb', hk] using h

/-- Each field of the format can be read back from the byte (R51). -/
theorem bus8_inj {rs e rs' e' : Bool} {n n' : Nibble} (h : bus8 rs e n = bus8 rs' e' n') :
    rs = rs' ∧ e = e' ∧ n = n' := by
  refine ⟨?_, ?_, ?_⟩
  · rw [← bus8_registerSelect rs e n, h, bus8_registerSelect]
  · rw [← bus8_enable rs e n, h, bus8_enable]
  · rw [← bus8_nibble rs e n, h, bus8_nibble]

/-- Masking keeps register-select, enable and the data, and nothing else (R10, R51). -/
theorem maskBus_eq_bus8 (b : Byte) : maskBus b = bus8 (b.getLsbD 0) (b.getLsbD 1) (b.extractLsb' 2 4) := by
  apply BitVec.eq_of_getLsbD_eq
  intro i hi
  interval_cases i <;> simp [maskBus, bus8]

theorem shifts_commitBody (s : State) : shifts (commitBody s).trace = shifts s.trace ++ [maskBus s.bus] := by
  rw [commitBody_eq, committed_trace, shifts_append, shifts_append, shifts_latchFall, List.nil_append,
    shifts_commitEvents, shifts_firstSink]

@[simp] theorem commitBody_bus (s : State) : (commitBody s).bus = maskBus s.bus := by rw [commitBody_eq]; rfl
@[simp] theorem commitBody_q (s : State) : (commitBody s).q = .ofByte (maskBus s.bus) := by rw [commitBody_eq]; rfl

/-- Settles O23: the commit publishes the masked BUS, which is the BUS8 byte of its three fields. -/
theorem committedByteIsBus8 : Obligations.CommittedByteIsBus8 := by
  refine ⟨?_, fun _ _ _ _ _ _ => bus8_inj⟩
  intro s rs e n hc hrs he hn
  have image : maskBus s.bus = bus8 rs e n := by rw [maskBus_eq_bus8, hrs, he, hn]
  refine ⟨commitBody s, bus8 rs e n, ifConfigured_of_configured hc _, ?_, ?_, ?_, ?_, bus8_lt rs e n,
    bus8_registerSelect rs e n, bus8_enable rs e n, fun k => bus8_dataLine rs e n⟩
  · rw [shifts_commitBody, image]
  · rw [commitBody_q, image]
  · rw [commitBody_bus, image]
  · rw [BitVec.shiftLeft_zero]; rfl

/-! ### The nibble used of a value -/

theorem exec_writeNibble {s : State} (hc : s.cfg.configured = true) (value : Byte) (rs : Bool) :
    exec (.writeNibble value rs) s = .next (afterNibble (lowNibble value) rs s) :=
  ifConfigured_writeNibbleBody hc value rs

/-- A value and its lower four bits give the same nibble (R52). -/
theorem lowNibble_and (value : Byte) : lowNibble (value &&& 0x0F) = lowNibble value := lowNibble_lowerValue value

/-- Settles O28: WRITE_NIBBLE looks at its value through `lowNibble` only, and leaves that nibble's image in BUS. -/
theorem nibbleIsMaskedAndPlaced : Obligations.NibbleIsMaskedAndPlaced := by
  intro s value rs hc
  rw [exec_writeNibble hc, exec_writeNibble hc, lowNibble_and]
  refine ⟨rfl, _, rfl, fun k hk => ?_⟩
  have bus : (afterNibble (lowNibble value) rs s).bus = bus8 rs false (lowNibble value) := rfl
  rw [bus, bus8_dataLine _ _ _ hk, lowNibble, BitVec.getLsbD_extractLsb']
  simp [hk]

end Sys2Proof.Proofs

/-!
The transport family (spec/40_transport.md): CONFIGURE from every state, and TRANSFER, whose description at the level of the
lines (`transferBody_eq`) differs from the byte-level one in the Bit events alone.
-/

namespace Sys2Proof.Proofs

open Sys2Proof.Machine Sys2Proof.Safety

/-! ### CONFIGURE -/

theorem exec_configure (s : State) : exec .configure s = .next (configureBody s) := rfl

/-- Settles O14: CONFIGURE has no guard, and its body writes PIN, CFG and the trace, whatever they held. -/
theorem configureResult : Obligations.ConfigureResult := exec_configure

/-- A configured block already has what CONFIGURE writes: directions, idle levels and CFG (R70 corner case (b)). -/
theorem configureBody_configureBody (s : State) :
    configureBody (configureBody s) = { configureBody s with trace := (configureBody s).trace ++ [.cfg] } := rfl

/-- Settles O15: the state CONFIGURE answers is `configureBody s`, which a second one only adds a Cfg to. -/
theorem configureIsIdempotent : Obligations.ConfigureIsIdempotent := by
  intro s t h
  obtain rfl : configureBody s = t := Host.Outcome.next.inj ((exec_configure s).symm.trans h)
  rw [exec_configure, configureBody_configureBody]

/-! ### TRANSFER -/

/-- Settles O16: the guard lets the body run, and `transferBody_eq` tells all it writes. -/
theorem transferResult : Obligations.TransferResult := by
  intro s b hc
  rw [exec_transfer hc, transferBody_eq, List.append_assoc]

@[simp] theorem transferBody_sr (s : State) (b : Byte) : (transferBody b s).sr = .ofByte b := by rw [transferBody_eq]

/-- Without its Bit events a transfer leaves one event, the byte shifted (R72). -/
theorem byteTrace_transferEvents (b : Byte) : byteTrace (bitEvents b ++ [.shift b]) = [.shift b] := rfl

/-- Settles O19: SR and Q are those of the byte-level transfer, and the projection drops exactly the Bit events. -/
theorem bitLevelTransferRefinesByteLevel : Obligations.BitLevelTransferRefinesByteLevel := by
  intro s b hc
  refine ⟨transferBody b s, exec_transfer hc b, transferBody_sr s b, transferBody_q s b, ?_⟩
  rw [transferBody_trace, byteTrace_append, byteTrace_transferEvents]

end Sys2Proof.Proofs

/-!
The bus family (spec/41_bus.md): the bit of BUS that SET_SIGNAL writes, the one latch pulse of a COMMIT (`commitBody_eq`),
and what a list of SET_SIGNALs leaves in BUS for the COMMIT that follows it.
-/

namespace Sys2Proof.Proofs

open Sys2Proof.Machine Sys2Proof.Safety

/-! ### SET_SIGNAL -/

theorem getLsbD_writeBit (x : Byte) {i k : Nat} (v : Bool) (hk : k < 8) :
    (writeBit x i v).getLsbD k = if k = i then v else x.getLsbD k := by
  have bit : ((BitVec.ofBool v).setWidth 8).getLsbD (k - i) = (decide (k - i = 0) && v) := by
    rw [BitVec.getLsbD_setWidth, BitVec.getLsbD_ofBool]
    simp [show k - i < 8 by omega]
  simp only [writeBit, BitVec.getLsbD_or, BitVec.getLsbD_and, BitVec.getLsbD_not, BitVec.getLsbD_shiftLeft, bit,
    BitVec.getLsbD_one, hk]
  rcases Nat.lt_trichotomy k i with below | rfl | above
  · simp [below, below.ne]
  · simp
  · have pos : k - i ≠ 0 := by omega
    simp [above.ne', pos]

theorem exec_setSignal {name : Signal} {i : Nat} (h : signalIndex name = some i) (v : Bool) (s : State) :
    exec (.setSignal name v) s = .next (setBus (writeBit s.bus i v) s) := by
  simp only [exec, execSetSignal, h]

/-- Settles O20: the six names are MAP's, and the bit written is the one MAP gives. -/
theorem setSignalWritesTheMappedBit : Obligations.SetSignalWritesTheMappedBit := by
  intro s v m hm
  have mapped : signalIndex m.1 = some m.2 := by
    simp only [List.mem_cons, List.not_mem_nil, or_false] at hm
    obtain rfl | rfl | rfl | rfl | rfl | rfl := hm <;> rfl
  exact ⟨_, exec_setSignal mapped v s, rfl, fun k hk => getLsbD_writeBit s.bus v hk⟩

/-- Settles O21: MAP has no entry for the two positions. -/
theorem unnamedSignalIsRefused : Obligations.UnnamedSignalIsRefused := fun _ _ => ⟨rfl, rfl⟩

/-! ### COMMIT -/

theorem exec_commit {s : State} (hc : s.cfg.configured = true) : exec .commit s = .next (commitBody s) :=
  ifConfigured_of_configured hc _

/-- Settles O22: the guard lets the body run, and `commitBody_eq` tells all it writes. -/
theorem commitResult : Obligations.CommitResult := by
  intro s hc
  rw [exec_commit hc, commitBody_eq]; rfl

theorem exists_bit_of_mem_bitEvents {v : Byte} {e : Event} (h : e ∈ bitEvents v) : ∃ b, e = .bit b := by
  simp only [bitEvents, List.mem_cons, List.not_mem_nil, or_false] at h
  obtain rfl | rfl | rfl | rfl | rfl | rfl | rfl | rfl := h <;> exact ⟨_, rfl⟩

/-- The sink appends Nibble events and nothing else (R94). -/
theorem exists_nibble_of_mem_captureEvents {c : Capture} {k : Nat} {e : Event} (h : e ∈ captureEvents c k) :
    ∃ rs n, e = .nibble rs n := by
  cases c with
  | nothing => cases h
  | nibble rs n => exact ⟨_, _, List.mem_singleton.mp h⟩
  | changed => exact ⟨_, _, List.mem_singleton.mp h⟩
  | fromUnknown =>
    obtain ⟨d, -, rfl⟩ := List.mem_map.mp h
    exact ⟨_, _, rfl⟩

theorem latchFall_of_low {s : State} (h : s.pins.latch.level = .low) : latchFall s = [] := by
  rw [latchFall, h]; rfl

/-- A COMMIT's events around its Shift, LatchUp and LatchDown are Bit, Out, Nibble and Delay events. -/
theorem commit_other_events {v : Byte} {c : Capture} {k : Nat} {e : Event}
    (h : e ∈ bitEvents v ++ [] ++ (.out (.ofByte v) :: captureEvents c k ++ [.delay .latch])) :
    e ≠ .latchUp ∧ e ≠ .latchDown ∧ ∀ w, e ≠ .shift w := by
  simp only [List.append_nil, List.mem_append, List.mem_cons, List.not_mem_nil, or_false] at h
  obtain bit | (rfl | nibble) | rfl := h
  · obtain ⟨b, rfl⟩ := exists_bit_of_mem_bitEvents bit
    exact ⟨nofun, nofun, nofun⟩
  · exact ⟨nofun, nofun, nofun⟩
  · obtain ⟨rs, n, rfl⟩ := exists_nibble_of_mem_captureEvents nibble
    exact ⟨nofun, nofun, nofun⟩
  · exact ⟨nofun, nofun, nofun⟩

/-- Settles O24: the trace of `commitBody_eq`, cut at its Shift, LatchUp and LatchDown. -/
theorem commitMakesOneLatchPulse : Obligations.CommitMakesOneLatchPulse := by
  intro s hc hlow
  refine ⟨_, bitEvents (maskBus s.bus), [],
    .out (.ofByte (maskBus s.bus)) :: firstSink s (maskBus s.bus) ++ [.delay .latch], exec_commit hc, ?_,
    fun e => commit_other_events⟩
  rw [commitBody_eq, committed_trace, latchFall_of_low hlow]
  simp [commitEvents, maskBus]

theorem outs_commitBody (s : State) : outs (commitBody s).trace = outs s.trace ++ [.ofByte (maskBus s.bus)] := by
  rw [commitBody_eq, committed_trace, outs_append, outs_append, outs_latchFall, List.nil_append, outs_commitEvents,
    outs_firstSink]

theorem getLsbD_maskBus (b : Byte) {k : Nat} (hk : k < 8) :
    (maskBus b).getLsbD k = if k < 6 then b.getLsbD k else false := by
  interval_cases k <;> simp [maskBus]

/-! ### SET_SIGNALs before a COMMIT -/

/-- The value a list of SET_SIGNALs sets last for bit `k` of BUS, none where it sets none (R83). -/
def lastSet (xs : List (Signal × Bool)) (k : Nat) : Option Bool :=
  (xs.reverse.find? fun x => signalIndex x.1 == some k).map Prod.snd

/-- A SET_SIGNAL decides its bit where no later one sets it. -/
theorem lastSet_cons {name : Signal} {i : Nat} (h : signalIndex name = some i) (v : Bool) (xs : List (Signal × Bool))
    (k : Nat) (old : Bool) :
    (lastSet ((name, v) :: xs) k).getD old = (lastSet xs k).getD (if k = i then v else old) := by
  rw [lastSet, lastSet, List.reverse_cons, List.find?_append]
  cases xs.reverse.find? fun x => signalIndex x.1 == some k with
  | some later => rfl
  | none =>
    by_cases hk : k = i
    · subst hk; simp [h]
    · simp [h, hk, Ne.symm hk]

/-- MAP has an entry for every position but the two unnamed ones (R11). -/
theorem exists_signalIndex {name : Signal} (h : name ≠ .unnamed6 ∧ name ≠ .unnamed7) :
    ∃ i, signalIndex name = some i := by
  obtain ⟨h6, h7⟩ := h
  cases name with
  | unnamed6 => exact absurd rfl h6
  | unnamed7 => exact absurd rfl h7
  | _ => exact ⟨_, rfl⟩

/-- SET_SIGNALs of named signals run to completion and write BUS only, each of its bits the last value set (R80, R83). -/
theorem callAll_setSignals (xs : List (Signal × Bool)) (rest : List Instr) (s : State)
    (named : ∀ x ∈ xs, x.1 ≠ .unnamed6 ∧ x.1 ≠ .unnamed7) :
    ∃ b, callAll (setSignals xs ++ rest) s = callAll rest (setBus b s)
      ∧ ∀ k < 8, b.getLsbD k = (lastSet xs k).getD (s.bus.getLsbD k) := by
  induction xs generalizing s with
  | nil => exact ⟨s.bus, rfl, fun _ _ => rfl⟩
  | cons x xs ih =>
    obtain ⟨name, v⟩ := x
    rw [List.forall_mem_cons] at named
    obtain ⟨hname, hrest⟩ := named
    obtain ⟨i, hi⟩ := exists_signalIndex hname
    obtain ⟨b, run, bits⟩ := ih (setBus (writeBit s.bus i v) s) hrest
    refine ⟨b, ?_, fun k hk => ?_⟩
    · simp only [setSignals, List.map_cons, List.cons_append, callAll, exec_setSignal hi]
      exact run
    · rw [bits k hk, setBus_bus, getLsbD_writeBit s.bus v hk, lastSet_cons hi]

/-- Settles O25: the SET_SIGNALs leave an image in BUS, and the COMMIT publishes it masked, once. -/
theorem setSignalsBatchIntoOneTransition : Obligations.SetSignalsBatchIntoOneTransition := by
  intro xs s hc named
  obtain ⟨b, run, bits⟩ := callAll_setSignals xs [.commit] s named
  have commit : callAll [.commit] (setBus b s) = .next (commitBody (setBus b s)) := by
    simp only [callAll, exec_commit (s := setBus b s) hc]
  refine ⟨_, maskBus b, run.trans commit, outs_commitBody _, commitBody_q _, fun k hk => ?_⟩
  rw [getLsbD_maskBus b hk, bits k hk]; rfl

end Sys2Proof.Proofs

/-!
The serializer family (spec/42_lcd_serializer.md): what the LCD sink makes of a commit (R94), the nibble writes and their
whole enable pulses (R96), and the bytes the sink pairs up from INIT on (R95).
-/

namespace Sys2Proof.Proofs

open Sys2Proof.Machine Sys2Proof.Safety

/-! ### The sink at one commit, by the cases of R94 -/

/-- Case 1: enable falls with register-select and data unchanged. -/
theorem capture_of_unchanged {o v : Byte} (ho : o.getLsbD 1 = true) (hv : v.getLsbD 1 = false)
    (same : o.getLsbD 0 = v.getLsbD 0 ∧ o.extractLsb' 2 4 = v.extractLsb' 2 4) :
    capture (.ofByte o) (.ofByte v) = .nibble (o.getLsbD 0) (o.extractLsb' 2 4) := by
  have known : captureKnown o v = .nibble (o.getLsbD 0) (o.extractLsb' 2 4) := by
    rw [captureKnown, ho, hv, if_pos same]; rfl
  simp only [capture, stage_byte_ofByte, known]

/-- Case 2: enable falls while register-select or data change. -/
theorem capture_of_changed {o v : Byte} (ho : o.getLsbD 1 = true) (hv : v.getLsbD 1 = false)
    (differ : ¬(o.getLsbD 0 = v.getLsbD 0 ∧ o.extractLsb' 2 4 = v.extractLsb' 2 4)) :
    capture (.ofByte o) (.ofByte v) = .changed := by
  have known : captureKnown o v = .changed := by
    rw [captureKnown, ho, hv, if_neg differ]; rfl
  simp only [capture, stage_byte_ofByte, known]

/-- Case 3: enable may have fallen out of an unknown Q. -/
theorem capture_unknown_low {v : Byte} (hv : v.getLsbD 1 = false) :
    capture .unknown (.ofByte v) = .fromUnknown := by
  simp only [capture, stage_byte_unknown, stage_byte_ofByte, hv, Bool.false_eq_true, if_false]

/-- Case 4 out of an unknown Q: enable is high afterwards, so it did not fall. -/
theorem capture_unknown_high {v : Byte} (hv : v.getLsbD 1 = true) : capture .unknown (.ofByte v) = .nothing := by
  simp only [capture, stage_byte_unknown, stage_byte_ofByte, hv, if_true]

/-- Case 4 with enable high afterwards. -/
theorem capture_enable_high (o : Byte) {v : Byte} (hv : v.getLsbD 1 = true) :
    capture (.ofByte o) (.ofByte v) = .nothing := by
  have known : captureKnown o v = .nothing := by
    rw [captureKnown, hv, Bool.not_true, Bool.and_false]; rfl
  simp only [capture, stage_byte_ofByte, known]

/-- A COMMIT adds the nibbles of its capture, and marks hazard R153 where the capture is that of case 2. -/
theorem commitBody_of_capture {s : State} {q : Stage} {c : Capture} (hq : s.q = q)
    (h : capture q (.ofByte (maskBus s.bus)) = c) :
    nibbles (commitBody s).trace = nibbles s.trace ++ nibbles (captureEvents c s.draws)
      ∧ (commitBody s).hazardR153 = (s.hazardR153 || c == .changed) := by
  subst hq h
  rw [commitBody_eq]
  refine ⟨?_, rfl⟩
  rw [committed_trace, nibbles_append, nibbles_append, nibbles_latchFall, List.nil_append, nibbles_commitEvents]
  rfl

theorem commitBody_of_capture_nothing {s : State} {q : Stage} (hq : s.q = q)
    (h : capture q (.ofByte (maskBus s.bus)) = .nothing) :
    nibbles (commitBody s).trace = nibbles s.trace ∧ (commitBody s).hazardR153 = s.hazardR153 := by
  obtain ⟨heard, hazard⟩ := commitBody_of_capture hq h
  exact ⟨heard.trans (List.append_nil _), hazard.trans (Bool.or_false _)⟩

/-- The draw of case 3 is no event or one nibble. -/
theorem nibbles_fromUnknown (k : Nat) :
    nibbles (captureEvents .fromUnknown k) = [] ∨ ∃ rs n, nibbles (captureEvents .fromUnknown k) = [(rs, n)] := by
  rw [captureEvents]
  cases Config.unknownCapture k with
  | none => exact .inl rfl
  | some d => exact .inr ⟨d.1, d.2, rfl⟩

/-- Settles O26: the stages before and after the latch edge decide the capture, and the capture all the rest. -/
theorem sinkCapturesByTheFourCases : Obligations.SinkCapturesByTheFourCases := by
  rintro s v hc rfl
  refine ⟨commitBody s, exec_commit hc, ?_, ?_, ?_, ?_⟩
  · intro o hq ho hv hrs hdata
    obtain ⟨heard, hazard⟩ := commitBody_of_capture hq (capture_of_unchanged ho hv ⟨hrs, hdata⟩)
    exact ⟨heard, hazard.trans (Bool.or_false _)⟩
  · intro o hq ho hv differ
    obtain ⟨heard, hazard⟩ := commitBody_of_capture hq (capture_of_changed ho hv differ)
    exact ⟨⟨_, _, heard⟩, hazard.trans (Bool.or_true _)⟩
  · intro hq hv
    obtain ⟨heard, hazard⟩ := commitBody_of_capture hq (capture_unknown_low hv)
    refine ⟨?_, hazard.trans (Bool.or_false _)⟩
    obtain none | ⟨rs, n, one⟩ := nibbles_fromUnknown s.draws
    · exact .inl (by rw [heard, none, List.append_nil])
    · exact .inr ⟨rs, n, by rw [heard, one]⟩
  · rintro (⟨o, hq, ho | hv⟩ | ⟨hq, hv⟩)
    · exact commitBody_of_capture_nothing hq (capture_enable_low o ho _)
    · exact commitBody_of_capture_nothing hq (capture_enable_high o hv)
    · exact commitBody_of_capture_nothing hq (capture_unknown_high hv)

/-! ### The results of the serializer's operations -/

/-- Settles O27: the guard lets the three commits of `writeNibbleBody_eq` run. -/
theorem writeNibbleResult : Obligations.WriteNibbleResult := fun _ value rs hc => exec_writeNibble hc value rs

/-- Settles O29: the guard lets the command byte of `writeCommandBody_eq` run. -/
theorem writeCommandResult : Obligations.WriteCommandResult := fun _ b hc => ifConfigured_writeCommandBody hc b

/-- Settles O30: the guard lets the data byte of `writeByteBody_eq` run. -/
theorem writeDataResult : Obligations.WriteDataResult := by
  intro s b hc
  rw [exec_writeData hc, writeByteBody_eq]; rfl

/-- Both rows have a base (R54). -/
theorem rowBase_of_le_one {row : Nat} (h : row ≤ 1) : rowBase row = some (if row = 0 then 0x80 else 0xC0) := by
  interval_cases row <;> rfl

/-- A column below 64 is sent as the command byte of its row's base plus the column (R93). -/
theorem exec_gotoPosition_of_le {s : State} (hc : s.cfg.configured = true) {column : Byte} (hcol : column.toNat ≤ 63)
    {row : Nat} {base : Byte} (hbase : rowBase row = some base) :
    exec (.gotoPosition column row) s = exec (.writeCommand (base + column)) s := by
  rw [exec_gotoPosition hc column hbase, if_neg (Nat.not_lt.mpr hcol)]

/-- Settles O33: each of the two rows has its base, and the rest is WRITE_COMMAND. -/
theorem gotoPositionResult : Obligations.GotoPositionResult := by
  intro s column hc hcol
  rw [exec_gotoPosition_of_le hc hcol (row := 0) rfl, exec_gotoPosition_of_le hc hcol (row := 1) rfl]
  exact ⟨writeCommandResult s _ hc, writeCommandResult s _ hc⟩

/-! ### Whole enable pulses -/

theorem enablePulses_pulses (ps : List (Bool × Nibble)) : EnablePulses (pulses ps) := by
  induction ps with
  | nil => trivial
  | cons p ps ih => exact enablePulses_nibbleOuts p.1 p.2 _ ih

/-- An operation that writes nibbles publishes nibble writes, at least one, and nothing else (R96). -/
theorem exec_publishes_pulses {i : Instr} {s t : State} (hw : writesNibbles i = true) (h : exec i s = .next t) :
    ∃ ps rs n, outs t.trace = outs s.trace ++ (pulses ps ++ nibbleOuts rs n) := by
  by_cases hn : i = .init
  · subst hn
    obtain rfl : initBody s = t := Host.Outcome.next.inj h
    obtain ⟨ps, hps⟩ := outs_initEvents_eq_pulses s.initVariant (outs_firstSink s (bus8 false false 0x3))
    exact ⟨ps, _, _, by rw [initBody_trace, outs_append, hps]⟩
  · obtain ⟨-, rs, n, n', ev, ps, rfl, hev⟩ := nibbles_written hw hn h
    exact ⟨ps, rs, n', by rw [committed_trace, outs_append, outs_append, outs_latchFall, List.nil_append, hev]⟩

/-- Settles O42: what is published is a row of nibble writes, each of them one pulse. -/
theorem nibbleWritersMakeWholeEnablePulses : Obligations.NibbleWritersMakeWholeEnablePulses := by
  intro i s t hw h
  obtain ⟨ps, rs, n, published⟩ := exec_publishes_pulses hw h
  have row : pulses ps ++ nibbleOuts rs n = pulses (ps ++ [(rs, n)]) := by simp [pulses]
  exact ⟨_, by simp [nibbleOuts], published, row ▸ enablePulses_pulses _⟩

/-! ### Operations that meet enable low on the outputs -/

theorem firstCapture_of_enable_low {s : State} (h : OutputsEnableLow s) (v : Byte) : firstCapture s v = .nothing := by
  obtain ⟨o, hq, ho⟩ := h
  rw [firstCapture, hq, capture_enable_low o ho]

/-- Neither the count of draws nor the mark of hazard R153 moves from `s` to `t`. -/
def NoDraw (s t : State) : Prop := t.draws = s.draws ∧ t.hazardR153 = s.hazardR153

theorem noDraw_committed {s : State} (h : OutputsEnableLow s) (first last : Byte) (ev : List Event) :
    NoDraw s (committed s first last ev) := by
  have still := firstCapture_of_enable_low h first
  exact ⟨by rw [committed, still]; rfl, by rw [committed, still]; exact Bool.or_false _⟩

/-- The first commit of INIT meets the outputs as they were: CONFIGURE does not touch Q. -/
theorem noDraw_initBody {s : State} (h : OutputsEnableLow s) : NoDraw s (initBody s) := by
  have start : OutputsEnableLow (setBus 0x00 (configureBody s)) := h
  rw [initBody_eq]
  exact noDraw_committed start (bus8 false false 0x3) (initImage s.initVariant) []

theorem exec_noDraw {i : Instr} {s t : State} (hs : OutputsEnableLow s) (h : exec i s = .next t) : NoDraw s t := by
  cases exec_effect h with
  | configure => exact ⟨rfl, rfl⟩
  | setSignal => exact ⟨rfl, rfl⟩
  | transfer b => rw [transferBody_eq]; exact ⟨rfl, rfl⟩
  | init => exact noDraw_initBody hs
  | commits => exact noDraw_committed hs _ _ _

theorem outputsEnableLow_committed (s : State) (first : Byte) (rs : Bool) (n : Nibble) (ev : List Event) :
    OutputsEnableLow (committed s first (bus8 rs false n) ev) :=
  ⟨_, rfl, bus8_enable rs false n⟩

/-- A COMMIT puts the enable of BUS on the outputs. -/
theorem outputsEnableLow_commitBody {s : State} (h : s.bus.getLsbD 1 = false) : OutputsEnableLow (commitBody s) :=
  ⟨_, commitBody_q s, by rw [getLsbD_maskBus _ (by decide)]; exact h⟩

theorem outputsEnableLow_initBody (s : State) : OutputsEnableLow (initBody s) :=
  ⟨_, initBody_q s, bus8_enable _ _ _⟩

theorem exec_keeps_enable_low {i : Instr} {s t : State} (hs : OutputsEnableLow s) (h : exec i s = .next t)
    (hcommit : i = .commit → s.bus.getLsbD 1 = false) : OutputsEnableLow t := by
  cases exec_next h with
  | configure => exact hs
  | setSignal => exact hs
  | transfer b => rw [OutputsEnableLow, transferBody_q]; exact hs
  | init => exact outputsEnableLow_initBody s
  | commit => exact outputsEnableLow_commitBody (hcommit rfl)
  | nibble => rw [writeNibbleBody_eq]; exact outputsEnableLow_committed ..
  | data => rw [writeByteBody_eq]; exact outputsEnableLow_committed ..
  | command => rw [writeCommandBody_eq]; exact outputsEnableLow_committed ..

/-- Settles O45: the first commit finds enable low, so the sink takes nothing from it, and the later ones draw nothing. -/
theorem noDrawWhileOutputsHaveEnableLow : Obligations.NoDrawWhileOutputsHaveEnableLow := by
  intro i s t hs h
  obtain ⟨draws, hazard⟩ := exec_noDraw hs h
  exact ⟨draws, hazard, exec_keeps_enable_low hs h⟩

/-! ### The bytes the sink pairs up -/

theorem exec_init (s : State) : exec .init s = .next (initBody s) := rfl

theorem lcdBytesSeen_initBody (s : State) : lcdBytesSeen (initBody s).trace = some (initBytesSeen s.initVariant) := by
  rw [initBody_trace, lcdBytesSeen_initEvents]

/-- Settles O53: INIT completes from every state, and the bytes after its switch are its commands. -/
theorem initBytesSeenAreItsCommands : Obligations.InitBytesSeenAreItsCommands :=
  fun s => ⟨initBody s, exec_init s, lcdBytesSeen_initBody s, initBody_lcdReady s⟩

/-- The nibbles of one byte pair up into it alone (R95). -/
theorem lcdBytes_byte (rs : Bool) (b : Byte) :
    lcdBytes [(rs, b.extractLsb' 4 4), (rs, b.extractLsb' 0 4)] = some [(rs, b)] := lcdBytes_pair rs b []

theorem lcdBytes_byteEvents (rs : Bool) (b : Byte) : lcdBytes (nibbles (byteEvents rs b [])) = some [(rs, b)] := by
  rw [nibbles_byteEvents]; exact lcdBytes_byte rs b

theorem lcdBytes_commandEvents (b : Byte) : lcdBytes (nibbles (commandEvents b [])) = some [(false, b)] := by
  rw [nibbles_commandEvents]; exact lcdBytes_byte false b

/-- A single nibble has no partner. -/
theorem lcdBytes_nibbleEvents (rs : Bool) (n : Nibble) : lcdBytes (nibbles (nibbleEvents rs n [])) = none := by
  rw [nibbles_nibbleEvents]; rfl

/-- Events without a nibble and without a T_PING3 leave the bytes seen as they were. -/
theorem lcdBytesSeen_append_silent {tr ev : List Event} {bs : List (Bool × Byte)} (h : lcdBytesSeen tr = some bs)
    (hw : Wait.ping3 ∉ waits ev) (silent : nibbles ev = []) : lcdBytesSeen (tr ++ ev) = some bs := by
  rw [lcdBytesSeen_append h hw, silent]
  simp [lcdBytes]

section BytesSeen

variable {s : State} {bs : List (Bool × Byte)} (hs : OutputsEnableLow s) (seen : lcdBytesSeen s.trace = some bs)

include hs seen

theorem lcdBytesSeen_writeCommandBody (b : Byte) :
    lcdBytesSeen (writeCommandBody b s).trace = some (bs ++ [(false, b)]) := by
  rw [writeCommandBody_eq, firstSink_of_enable_low hs,
    lcdBytesSeen_committed seen (ping3_notMem_waits_commandEvents b), lcdBytes_commandEvents]
  rfl

theorem lcdBytesSeen_writeByteBody (b : Byte) (rs : Bool) :
    lcdBytesSeen (writeByteBody b rs s).trace = some (bs ++ [(rs, b)]) := by
  rw [writeByteBody_eq, firstSink_of_enable_low hs,
    lcdBytesSeen_committed seen (ping3_notMem_waits_byteEvents rs b), lcdBytes_byteEvents]
  rfl

/-- A lone nibble leaves the stream out of step (R152). -/
theorem lcdBytesSeen_afterNibble (n : Nibble) (rs : Bool) : lcdBytesSeen (afterNibble n rs s).trace = none := by
  rw [afterNibble, firstSink_of_enable_low hs,
    lcdBytesSeen_committed seen (ping3_notMem_waits_nibbleEvents rs n), lcdBytes_nibbleEvents]
  rfl

/-- A COMMIT that finds enable low on the outputs gives the sink nothing. -/
theorem lcdBytesSeen_commitBody : lcdBytesSeen (commitBody s).trace = some bs := by
  have noInit : Wait.ping3 ∉ waits (commitEvents (maskBus s.bus) []) := by
    rw [waits_commitEvents]; decide
  have silent : nibbles (commitEvents (maskBus s.bus) []) = [] := nibbles_commitEvents _ _
  rw [commitBody_eq, firstSink_of_enable_low hs, lcdBytesSeen_committed seen noInit, silent]
  simp [lcdBytes]

theorem lcdBytesSeen_of_no_nibble_written {i : Instr} {t : State} (hw : writesNibbles i = false)
    (h : exec i s = .next t) : lcdBytesSeen t.trace = some bs := by
  cases exec_next h with
  | configure => exact lcdBytesSeen_append_silent seen (ev := [.cfg]) nofun rfl
  | setSignal => exact seen
  | transfer b => rw [transferBody_trace]; exact lcdBytesSeen_append_silent seen nofun rfl
  | commit => exact lcdBytesSeen_commitBody hs seen
  | init => cases hw
  | data => cases hw
  | nibble _ _ _ _ hi => cases hw.symm.trans hi
  | command _ _ _ hi => cases hw.symm.trans hi

end BytesSeen

/-- Settles O54: the first commit gives the sink nothing, so what an operation adds to the bytes seen is what its own
nibbles pair into. -/
theorem bytesSeenFollowTheOperations : Obligations.BytesSeenFollowTheOperations := by
  intro s bs hc hs seen
  have command (b : Byte) :
      ∃ t, exec (.writeCommand b) s = .next t ∧ lcdBytesSeen t.trace = some (bs ++ [(false, b)]) :=
    ⟨_, exec_writeCommand hc b, lcdBytesSeen_writeCommandBody hs seen b⟩
  refine ⟨command, fun b => ⟨_, exec_writeData hc b, lcdBytesSeen_writeByteBody hs seen b true⟩, ?_,
    fun value rs => ⟨_, exec_writeNibble hc value rs, lcdBytesSeen_afterNibble hs seen _ rs⟩,
    fun i t => lcdBytesSeen_of_no_nibble_written hs seen⟩
  intro column row hcol hrow
  rw [exec_gotoPosition_of_le hc hcol (rowBase_of_le_one hrow)]
  exact command _

/-! ### WRITE_STRING -/

/-- WRITE_DATA of each character of a string, from outputs with enable low: it completes, LCD_READY stays, and the trace
grows by events that hold no INIT and whose nibbles pair up into the characters (R95, R114). -/
theorem callAll_writeString (chars : List Byte) {s : State} (hc : s.cfg.configured = true) (hs : OutputsEnableLow s) :
    ∃ t ev, callAll (writeString chars) s = .next t ∧ t.lcdReady = s.lcdReady ∧ t.trace = s.trace ++ ev
      ∧ Wait.ping3 ∉ waits ev ∧ lcdBytes (nibbles ev) = some (chars.map fun c => (true, c)) := by
  induction chars generalizing s with
  | nil => exact ⟨s, [], rfl, rfl, (List.append_nil _).symm, nofun, rfl⟩
  | cons c cs ih =>
    have run := exec_writeData hc c
    rw [writeByteBody_eq, firstSink_of_enable_low hs] at run
    obtain ⟨t, ev, rest, ready, grown, noInit, paired⟩ :=
      ih (s := committed s _ _ _) hc (outputsEnableLow_committed s _ _ _ _)
    refine ⟨t, latchFall s ++ byteEvents true c [] ++ ev, ?_, ready, ?_, ?_, ?_⟩
    · rw [writeString, List.map_cons, callAll, run]; exact rest
    · rw [grown, committed_trace, List.append_assoc]
    · simp [ping3_notMem_waits_byteEvents, noInit]
    · rw [nibbles_append, nibbles_append, nibbles_latchFall, List.nil_append,
        lcdBytes_append (lcdBytes_byteEvents true c), paired]
      rfl

/-- Settles O55: INIT leaves a configured block with enable low and its commands seen, and the string follows. -/
theorem initThenStringIsWhatTheSinkSees : Obligations.InitThenStringIsWhatTheSinkSees := by
  intro s chars
  obtain ⟨t, ev, run, ready, grown, noInit, paired⟩ := callAll_writeString chars (initBody_configured s) (outputsEnableLow_initBody s)
  refine ⟨t, ?_, ready.trans (initBody_lcdReady s), ?_⟩
  · rw [callAll, exec_init]; exact run
  · rw [grown, lcdBytesSeen_append (lcdBytesSeen_initBody s) noInit, paired]; rfl

end Sys2Proof.Proofs

/-!
The initialisation family (spec/43_lcd_init.md): the state INIT leaves, the nibbles and bytes its events hold (R110, R111),
the bounds of its waits (R112), and the characters of a WRITE_STRING (R114).
-/

namespace Sys2Proof.Proofs

open Sys2Proof.Machine Sys2Proof.Safety

/-! ### WRITE_STRING -/

/-- Settles O48: the events a WRITE_STRING appends hold the nibbles of its characters and no other. -/
theorem writeStringDeliversTheCharacters : Obligations.WriteStringDeliversTheCharacters := by
  intro chars s hc hs
  obtain ⟨t, ev, run, -, grown, -, paired⟩ := callAll_writeString chars hc hs
  exact ⟨t, nibbles ev, run, by rw [grown, nibbles_append], paired⟩

/-! ### The state INIT leaves -/

/-- The lower nibble of the last command of each variant is what R112 gives as its last byte. -/
theorem initImage_eq_initLast (v : InitVariant) : initImage v = initLast v := by cases v <;> rfl

/-- Settles O35: `initBody_eq` tells all that INIT writes, its first commit being of 0x0C and its last of `initLast`. -/
theorem initResult : Obligations.InitResult := by
  intro s
  have first : bus8 false false 0x3 = 0x0C := rfl
  have last : bus8 false false ((lastInitCommand s.initVariant).extractLsb' 0 4) = initLast s.initVariant :=
    initImage_eq_initLast s.initVariant
  rw [exec_init, initBody_eq, first, last]; rfl

/-! ### The nibbles of INIT -/

/-- The lone nibbles with which INIT opens: three pings and the switch (R110). -/
def handshakeNibbles : List (Bool × Nibble) := [(false, 0x3), (false, 0x3), (false, 0x3), (false, 0x2)]

/-- The nibbles of INIT are what its first commit makes the sink see, the handshake, and those of its commands. -/
theorem nibbles_initEvents (v : InitVariant) (sink : List Event) :
    nibbles (initEvents v sink) =
      nibbles sink ++ handshakeNibbles ++ nibbles ((initCommands v).flatMap fun c => commandEvents c []) := by
  have start : nibbles [.cfg, .delay .power] = [] := rfl
  have wait (w : Wait) : nibbles [.delay w] = [] := rfl
  have empty : nibbles [] = [] := rfl
  simp only [initEvents, nibbles_append, nibbles_nibbleEvents, start, wait, empty]
  simp [handshakeNibbles]

/-- The nibbles of a list of command bytes pair up into those bytes, in command mode (R95). -/
theorem lcdBytes_commands (cs : List Byte) :
    lcdBytes (nibbles (cs.flatMap fun c => commandEvents c [])) = some (cs.map fun c => (false, c)) := by
  induction cs with
  | nil => rfl
  | cons c cs ih =>
    rw [List.flatMap_cons, nibbles_append, lcdBytes_append (lcdBytes_commandEvents c), ih]
    rfl

/-- Settles O36: before the handshake stands the draw of the first commit, after it the nibbles of the commands. -/
theorem initSendsTheHandshakeThenTheCommands : Obligations.InitSendsTheHandshakeThenTheCommands := by
  intro s
  refine ⟨initBody s, nibbles (firstSink s (bus8 false false 0x3)), _, exec_init s,
    nibbles_captureEvents_length _ _, ?_, (lcdBytes_commands (initCommands s.initVariant)).trans ?_⟩
  · rw [initBody_trace, nibbles_append, nibbles_initEvents, handshakeNibbles]
    simp only [List.append_assoc]
  · cases s.initVariant <;> rfl

/-! ### The bytes INIT publishes -/

/-- The nibble writes of INIT: the handshake, then two for each command (R110, R111). -/
def initNibbles (v : InitVariant) : List (Bool × Nibble) :=
  handshakeNibbles ++ (initCommands v).flatMap commandNibbles

theorem outs_initEvents_eq (v : InitVariant) {sink : List Event} (h : outs sink = []) :
    outs (initEvents v sink) = pulses (initNibbles v) := by
  have start : outs [.cfg, .delay .power] = [] := rfl
  have wait (w : Wait) : outs [.delay w] = [] := rfl
  simp only [initEvents, outs_append, start, wait, outs_nibbleEvents _ _ _ h, outs_nibbleEvents _ _ [] rfl,
    outs_commands]
  simp [pulses, initNibbles, handshakeNibbles]

/-- A nibble write is three commits (R90). -/
theorem length_pulses (ps : List (Bool × Nibble)) : (pulses ps).length = ps.length * 3 := by
  simp [pulses, nibbleOuts]

/-! ### The bounds of INIT's waits -/

/-- The sum of the lower bounds of the waits in `ev` other than T_LATCH, as R112 counts them. -/
def boundBesideLatch (ev : List Event) : Nat := boundTime ((waits ev).filter (· ≠ .latch))

@[simp] theorem boundBesideLatch_append (a b : List Event) :
    boundBesideLatch (a ++ b) = boundBesideLatch a + boundBesideLatch b := by
  simp [boundBesideLatch, boundTime]

/-- What a nibble write waits at least beside its latch pulses: T_AS and T_EXEC (R90). -/
def nibbleBound : Nat := Config.waitBound .addressSetup + Config.waitBound .exec

theorem boundBesideLatch_nibbleEvents (rs : Bool) (n : Nibble) {sink : List Event} (h : waits sink = []) :
    boundBesideLatch (nibbleEvents rs n sink) = nibbleBound := by
  rw [boundBesideLatch, waits_nibbleEvents _ _ _ h]; rfl

/-- A command waits for its two nibbles, and T_LONG where it is a long one (R56). -/
theorem boundBesideLatch_commandEvents (c : Byte) :
    boundBesideLatch (commandEvents c []) = 2 * nibbleBound + if isLongCommand c then Config.waitBound .long else 0 := by
  simp only [commandEvents, byteEvents, boundBesideLatch_append, boundBesideLatch_nibbleEvents _ _ (sink := []) rfl,
    isLongCommand_iff, Nat.two_mul]
  split <;> rfl

/-- A list of commands waits T_LONG once for each long command in it. -/
theorem boundBesideLatch_commands (cs : List Byte) :
    boundBesideLatch (cs.flatMap fun c => commandEvents c []) =
      2 * cs.length * nibbleBound + cs.countP isLongCommand * Config.waitBound .long := by
  induction cs with
  | nil => simp [boundBesideLatch, waits, boundTime]
  | cons c cs ih =>
    rw [List.flatMap_cons, boundBesideLatch_append, ih, boundBesideLatch_commandEvents, List.countP_cons,
      List.length_cons]
    split <;> ring

/-- Each variant has one long command, Clear Display (R111). -/
theorem countP_isLongCommand_initCommands (v : InitVariant) : (initCommands v).countP isLongCommand = 1 := by
  cases v <;> rfl

/-- INIT waits T_POWER, the three ping waits, T_AS and T_EXEC for each of its nibbles, and T_LONG once (R112). -/
theorem boundBesideLatch_initEvents (v : InitVariant) {sink : List Event} (h : waits sink = []) :
    boundBesideLatch (initEvents v sink) =
      Config.waitBound .power + Config.waitBound .ping1 + Config.waitBound .ping2 + Config.waitBound .ping3
        + (4 + 2 * (initCommands v).length) * nibbleBound + Config.waitBound .long := by
  have start : boundBesideLatch [.cfg, .delay .power] = Config.waitBound .power := rfl
  have ping1 : boundBesideLatch [.delay .ping1] = Config.waitBound .ping1 := rfl
  have ping2 : boundBesideLatch [.delay .ping2] = Config.waitBound .ping2 := rfl
  have ping3 : boundBesideLatch [.delay .ping3] = Config.waitBound .ping3 := rfl
  simp only [initEvents, boundBesideLatch_append, boundBesideLatch_commands, boundBesideLatch_nibbleEvents _ _ h,
    boundBesideLatch_nibbleEvents _ _ (sink := []) rfl, countP_isLongCommand_initCommands, start, ping1, ping2, ping3]
  ring

/-- Settles O37: INIT writes 14 nibbles in variant A and 12 in B, each of them three commits and two waits beside T_LATCH. -/
theorem initCountsAndBounds : Obligations.InitCountsAndBounds := by
  intro s
  refine ⟨initBody s, _, _, exec_init s, by rw [initBody_trace, outs_append], by rw [initBody_trace, waits_append],
    ?_, ?_, (boundBesideLatch_initEvents s.initVariant (waits_firstSink _ _)).trans ?_⟩
  · rw [outs_initEvents_eq _ (outs_firstSink _ _), length_pulses]
    cases s.initVariant <;> rfl
  · rw [(publishes_initEvents _ (outs_firstSink _ _)).last_out, initImage_eq_initLast]
    cases s.initVariant <;> rfl
  · cases s.initVariant <;> rfl

end Sys2Proof.Proofs

/-!
The exceptions family (spec/60_exceptions.md): there is no fault, so an operation completes or is refused; when it is
refused and with which reason, and the step at the end of the stream and at a reserved word.
-/

namespace Sys2Proof.Proofs

open Sys2Proof.Machine Sys2Proof.Safety

/-! ### The step where no operation is performed -/

/-- Settles O8: at or past the end there is no request to take. -/
theorem stepIdlesAtTheEndOfTheStream : Obligations.StepIdlesAtTheEndOfTheStream := by
  intro s hend
  have ended : currentRequest s = none := List.getElem?_eq_none_iff.mpr hend
  simp only [step, ended]

/-- Settles O9: a rejected word stands for no operation, so the step answers the rejection. -/
theorem stepRefusesAReservedWord : Obligations.StepRefusesAReservedWord := by
  intro s w reject hr hw
  have request : currentRequest s = some (.word w) := hr
  have rejected : requestInstr (.word w) = .error .reservedRequest := by simp only [requestInstr, hw]
  simp only [step, request, rejected]

/-! ### When an operation is refused -/

/-- SET_SIGNAL is refused exactly at the two positions MAP does not name, configured or not (R80, decision D14). -/
theorem exec_setSignal_refused {name : Signal} {v : Bool} {s : State} {r : Refusal} :
    exec (.setSignal name v) s = .refused r ↔ r = .reservedSignal ∧ (name = .unnamed6 ∨ name = .unnamed7) := by
  cases name <;> simp [exec, execSetSignal, signalIndex, eq_comm]

/-- A row without a base is one above 1 (R54). -/
theorem rowBase_eq_none_iff {row : Nat} : rowBase row = none ↔ 1 < row := by
  refine ⟨fun h => Nat.lt_of_not_le fun hle => ?_, fun h => ?_⟩
  · simp [rowBase_of_le_one hle] at h
  · obtain ⟨n, rfl⟩ := Nat.exists_eq_add_of_le' h
    rfl

/-- GOTO_POSITION checks the configuration, then the row, then the column, and is refused at the first that fails
(R93, R123). -/
theorem exec_gotoPosition_refused {column : Byte} {row : Nat} {s : State} {r : Refusal} :
    exec (.gotoPosition column row) s = .refused r ↔
      (r = .notConfigured ∧ s.cfg.configured = false)
        ∨ (r = .rowOutOfRange ∧ s.cfg.configured = true ∧ 1 < row)
        ∨ (r = .columnOutOfRange ∧ s.cfg.configured = true ∧ row ≤ 1 ∧ 63 < column.toNat) := by
  cases hc : s.cfg.configured with
  | false => simp [exec, execGotoPosition, hc, eq_comm]
  | true =>
    cases hbase : rowBase row with
    | none =>
      have hrow : 1 < row := rowBase_eq_none_iff.mp hbase
      simp [exec, execGotoPosition, hc, hbase, hrow, Nat.not_le.mpr hrow, eq_comm]
    | some base =>
      have hrow : row ≤ 1 := Nat.not_lt.mp fun h => by simp [rowBase_eq_none_iff.mpr h] at hbase
      rw [exec_gotoPosition hc column hbase, exec_writeCommand hc]
      split <;> simp [*, Nat.not_lt.mpr hrow, eq_comm]

/-- Settles O13, by the kinds of operation: CONFIGURE and INIT always complete, SET_SIGNAL and GOTO_POSITION have checks
of their own, and the guard of CFG.configured is the only check of every other. -/
theorem refusalsAreExactlyTheListed : Obligations.RefusalsAreExactlyTheListed := by
  intro i s r
  cases i with
  | configure => simp [exec_configure, needsConfigured, writesNibbles]
  | init => simp [exec_init, needsConfigured]
  | setSignal name v =>
    rw [exec_setSignal_refused]
    simp [needsConfigured, writesNibbles, exists_or, -Bool.exists_bool]
  | gotoPosition column row =>
    rw [exec_gotoPosition_refused]
    simp [needsConfigured, writesNibbles]
  | _ => exact ifConfigured_refused.trans (by simp [needsConfigured, writesNibbles, and_comm])

/-! ### When an operation and a step complete -/

/-- A refused operation has no meaning where it was requested: the conditions of the list are those of R124. -/
theorem hasNoMeaning_of_refused {i : Instr} {s : State} {r : Refusal} (h : exec i s = .refused r) : HasNoMeaning i s := by
  obtain ⟨-, hguard⟩ | ⟨-, hname⟩ | ⟨-, -, column, row, hi, hrow⟩ | ⟨-, -, column, row, hi, -, hcol⟩ :=
    (refusalsAreExactlyTheListed i s r).mp h
  · exact .inl hguard
  · exact .inr (.inl hname)
  · exact .inr (.inr ⟨column, row, hi, .inl hrow⟩)
  · exact .inr (.inr ⟨column, row, hi, .inr hcol⟩)

/-- There is no fault (R120), so an operation that has a meaning completes. -/
theorem exec_completes {i : Instr} {s : State} (h : ¬HasNoMeaning i s) : ∃ t, exec i s = .next t := by
  cases answer : exec i s with
  | next t => exact ⟨t, rfl⟩
  | fault f => exact nomatch f
  | refused r => exact absurd (hasNoMeaning_of_refused answer) h

/-- Settles O12: the step idles where there is no request, and otherwise completes with its operation. -/
theorem everyOperationCompletesUnlessRefused : Obligations.EveryOperationCompletesUnlessRefused := by
  refine ⟨fun _ _ => exec_completes, fun s hmeaning => ?_⟩
  cases request : currentRequest s with
  | none => exact ⟨s, stepIdlesAtTheEndOfTheStream s (ops_length_le_ip_of_currentRequest request)⟩
  | some r =>
    obtain ⟨i, hi, hm⟩ := hmeaning r request
    obtain ⟨t, ht⟩ := exec_completes hm
    exact ⟨advanceIp t, (step_of_request request hi).trans (finishOperation_next.mpr ⟨t, ht, rfl⟩)⟩

end Sys2Proof.Proofs

/-!
The reset and hazards family (spec/70_reset_and_hazards.md): a table word handed over for the fetch (R143), and the waits
(R160, R161).
-/

namespace Sys2Proof.Proofs

open Sys2Proof.Machine Sys2Proof.Safety

/-! ### The placed word -/

/-- A table word is read as an operation exactly where the decoder accepts it as that operation. -/
theorem decodeTableWord_eq_some {nbits w : Nat} {i : Instr} :
    decodeTableWord nbits w = some i ↔ decode (tableWord nbits w) = .ok i := by
  unfold decodeTableWord
  cases decode (tableWord nbits w) <;> simp

/-- Settles O10: the word placed is the request at IP, and the step runs the operation that request decodes to. -/
theorem placedWordIsRunByTheNextStep : Obligations.PlacedWordIsRunByTheNextStep := by
  intro s t nbits w i hi ht
  have request : currentRequest (s.withFetchWord nbits w) = some (.word (tableWord nbits w)) :=
    currentRequest_placeRequest _ s
  obtain ⟨completes, -⟩ :=
    stepRunsTheDecodedOperation _ _ i request (.inr ⟨_, rfl, decodeTableWord_eq_some.mp hi⟩)
  exact completes t ht

/-! ### The waits -/

/-- A wait is its bound and an extra that is never negative (R5). -/
theorem waitBound_le_waitNs (w : Wait) : Config.waitBound w ≤ Config.waitNs w := Nat.le_add_right _ _

/-- Settles O49: each wait of the list is at least its bound, and the sums compare term by term. -/
theorem waitsAreNeverBelowTheirBounds : Obligations.WaitsAreNeverBelowTheirBounds := by
  refine ⟨fun ws => ?_, ?_⟩
  · exact List.sum_le_sum fun w _ => waitBound_le_waitNs w
  · rfl

end Sys2Proof.Proofs
